-- ==== Sys2Proof/Word.lean ====
section
/-! DEFINITION. The word types of the core (spec/10_state.md R20-R26, spec/20_memory.md R50). -/

namespace Sys2Proof

/-- A general register, a timer, a memory cell or an immediate kk: 8 bits, unsigned (R20, R26, R50). -/
abbrev Byte := BitVec 8

/-- The program counter, the index register, a stack entry or an instruction word: 16 bits, unsigned
(R22, R23, R24, R29). -/
abbrev Word := BitVec 16

/-- The 12-bit address immediate nnn = w[11:0] (R81). -/
abbrev Addr := BitVec 12

/-- The index of one of the 16 general registers, a 4-bit instruction field (R20). -/
abbrev RegIdx := Fin 16

/-- The register that doubles as the flag, VF = V[15] (R21). -/
abbrev vF : RegIdx := 15

/-- The register that JP V0,nnn reads implicitly (R20, R128). -/
abbrev v0 : RegIdx := 0

end Sys2Proof
end

