-- ==== Sys2Proof/Syntax.lean ====
section
/-! DEFINITION. The instructions: one constructor for each of the 34 rows of spec/opcode_table.json
(spec/30_encoding.md R81-R88, R95). Register fields are `RegIdx`, the byte kk is `Byte`, the address nnn is `Addr`,
the row count n of DRW is a `Fin 16` (R82). The no-op handler of unmapped words has no row in the table; it is
`Handler.nop` of Decode.lean. -/

namespace Sys2Proof

inductive Instr where
  /-- CLS, R220: clear the display. -/
  | cls
  /-- RET, R121: return from subroutine. -/
  | ret
  /-- JP nnn, R122: jump. -/
  | jp (nnn : Addr)
  /-- CALL nnn, R123: call subroutine. -/
  | call (nnn : Addr)
  /-- SE Vx,kk, R124: skip if equal to immediate. -/
  | seVxKk (x : RegIdx) (kk : Byte)
  /-- SNE Vx,kk, R125: skip if not equal to immediate. -/
  | sneVxKk (x : RegIdx) (kk : Byte)
  /-- SE Vx,Vy, R126: skip if registers equal. -/
  | seVxVy (x y : RegIdx)
  /-- LD Vx,kk, R151: load immediate. -/
  | ldVxKk (x : RegIdx) (kk : Byte)
  /-- ADD Vx,kk, R152: add immediate, no flag. -/
  | addVxKk (x : RegIdx) (kk : Byte)
  /-- LD Vx,Vy, R153: copy register. -/
  | ldVxVy (x y : RegIdx)
  /-- OR Vx,Vy, R154. -/
  | orVxVy (x y : RegIdx)
  /-- AND Vx,Vy, R155. -/
  | andVxVy (x y : RegIdx)
  /-- XOR Vx,Vy, R156. -/
  | xorVxVy (x y : RegIdx)
  /-- ADD Vx,Vy, R157: add with carry out. -/
  | addVxVy (x y : RegIdx)
  /-- SUB Vx,Vy, R158: subtract, flag = no borrow. -/
  | subVxVy (x y : RegIdx)
  /-- SHR Vx, R159: shift right by one; the y field is ignored (R89). -/
  | shrVx (x : RegIdx)
  /-- SUBN Vx,Vy, R160: reverse subtract, flag = no borrow. -/
  | subnVxVy (x y : RegIdx)
  /-- SHL Vx, R161: shift left by one; the y field is ignored (R89). -/
  | shlVx (x : RegIdx)
  /-- SNE Vx,Vy, R127: skip if registers differ. -/
  | sneVxVy (x y : RegIdx)
  /-- LD I,nnn, R190: load index. -/
  | ldI (nnn : Addr)
  /-- JP V0,nnn, R128: jump indexed by V0. -/
  | jpV0 (nnn : Addr)
  /-- RND Vx,kk, R162: random byte masked by immediate. -/
  | rnd (x : RegIdx) (kk : Byte)
  /-- DRW Vx,Vy,n, R221: draw an n-row sprite. -/
  | drw (x y : RegIdx) (n : Fin 16)
  /-- SKP Vx, R240: skip if key Vx is pressed. -/
  | skp (x : RegIdx)
  /-- SKNP Vx, R241: skip if key Vx is not pressed. -/
  | sknp (x : RegIdx)
  /-- LD Vx,DT, R242: read the delay timer. -/
  | ldVxDt (x : RegIdx)
  /-- LD Vx,K, R243: wait for a key and load its number. -/
  | ldVxK (x : RegIdx)
  /-- LD DT,Vx, R244: set the delay timer. -/
  | ldDtVx (x : RegIdx)
  /-- LD ST,Vx, R245: set the sound timer. -/
  | ldStVx (x : RegIdx)
  /-- ADD I,Vx, R191: add register to index. -/
  | addIVx (x : RegIdx)
  /-- LD F,Vx, R192: point I at a font glyph. -/
  | ldFVx (x : RegIdx)
  /-- LD B,Vx, R193: store binary-coded decimal. -/
  | ldBVx (x : RegIdx)
  /-- LD [I],Vx, R194: store registers V0..Vx. -/
  | ldMemVx (x : RegIdx)
  /-- LD Vx,[I], R195: load registers V0..Vx. -/
  | ldVxMem (x : RegIdx)
  deriving DecidableEq, Repr

end Sys2Proof
end

