-- ==== Sys2Proof/Decode.lean ====
section
/-! DEFINITION. The decoder (spec/30_encoding.md R80-R94), total on words and on bytes, and after it the encoder,
written from the same tables. The opcode numbers are the spec's decision D1 (log 1). -/

namespace Sys2Proof

/-- What a word's dispatch reaches: one of the 34 instructions or the no-op handler, 35 handlers in all (R92). -/
inductive Handler where
  | instr (i : Instr)
  /-- The handler every unmapped table entry resolves to (R91). -/
  | nop
  deriving DecidableEq, Repr

/-- `w[hi:lo]`, the unsigned value of bits hi down to lo of w (R5). -/
def bits (w : Word) (hi lo : Nat) : Nat := w.toNat / 2 ^ lo % 2 ^ (hi + 1 - lo)

/-- The top nibble w[15:12], the index of the primary table (R81). -/
def opField (w : Word) : Nat := bits w 15 12

/-- The register field x = w[11:8] (R81). -/
def xField (w : Word) : RegIdx := ⟨bits w 11 8, Nat.mod_lt _ (by decide)⟩

/-- The register field y = w[7:4] (R81). -/
def yField (w : Word) : RegIdx := ⟨bits w 7 4, Nat.mod_lt _ (by decide)⟩

/-- The field n = w[3:0]: DRW's row count and the secondary index of families 0, 8 and E (R81). -/
def nField (w : Word) : Fin 16 := ⟨bits w 3 0, Nat.mod_lt _ (by decide)⟩

/-- The immediate kk = w[7:0] (R81). -/
def kkField (w : Word) : Byte := BitVec.ofNat 8 (bits w 7 0)

/-- The address nnn = w[11:0] (R81). -/
def nnnField (w : Word) : Addr := BitVec.ofNat 12 (bits w 11 0)

/-- The secondary table of family 0, indexed by w[3:0]; bits 11..4 are not examined (R85). -/
def decodeFamily0 (w : Word) : Handler :=
  match bits w 3 0 with
  | 0x0 => .instr .cls
  | 0xE => .instr .ret
  | _ => .nop

/-- The secondary table of family 8, indexed by w[3:0] (R86). -/
def decodeFamily8 (w : Word) : Handler :=
  match bits w 3 0 with
  | 0x0 => .instr (.ldVxVy (xField w) (yField w))
  | 0x1 => .instr (.orVxVy (xField w) (yField w))
  | 0x2 => .instr (.andVxVy (xField w) (yField w))
  | 0x3 => .instr (.xorVxVy (xField w) (yField w))
  | 0x4 => .instr (.addVxVy (xField w) (yField w))
  | 0x5 => .instr (.subVxVy (xField w) (yField w))
  | 0x6 => .instr (.shrVx (xField w))
  | 0x7 => .instr (.subnVxVy (xField w) (yField w))
  | 0xE => .instr (.shlVx (xField w))
  | _ => .nop

/-- The secondary table of family E, indexed by w[3:0]; bits 7..4 are not examined (R87). -/
def decodeFamilyE (w : Word) : Handler :=
  match bits w 3 0 with
  | 0xE => .instr (.skp (xField w))
  | 0x1 => .instr (.sknp (xField w))
  | _ => .nop

/-- The secondary table of family F, indexed by w[7:0] (R88). -/
def decodeFamilyF (w : Word) : Handler :=
  match bits w 7 0 with
  | 0x07 => .instr (.ldVxDt (xField w))
  | 0x0A => .instr (.ldVxK (xField w))
  | 0x15 => .instr (.ldDtVx (xField w))
  | 0x18 => .instr (.ldStVx (xField w))
  | 0x1E => .instr (.addIVx (xField w))
  | 0x29 => .instr (.ldFVx (xField w))
  | 0x33 => .instr (.ldBVx (xField w))
  | 0x55 => .instr (.ldMemVx (xField w))
  | 0x65 => .instr (.ldVxMem (xField w))
  | _ => .nop

/-- The primary table, indexed by w[15:12] (R83, R84). The last arm is op = 0xF, the one value left. -/
def decode (w : Word) : Handler :=
  match opField w with
  | 0x0 => decodeFamily0 w
  | 0x1 => .instr (.jp (nnnField w))
  | 0x2 => .instr (.call (nnnField w))
  | 0x3 => .instr (.seVxKk (xField w) (kkField w))
  | 0x4 => .instr (.sneVxKk (xField w) (kkField w))
  | 0x5 => .instr (.seVxVy (xField w) (yField w))
  | 0x6 => .instr (.ldVxKk (xField w) (kkField w))
  | 0x7 => .instr (.addVxKk (xField w) (kkField w))
  | 0x8 => decodeFamily8 w
  | 0x9 => .instr (.sneVxVy (xField w) (yField w))
  | 0xA => .instr (.ldI (nnnField w))
  | 0xB => .instr (.jpV0 (nnnField w))
  | 0xC => .instr (.rnd (xField w) (kkField w))
  | 0xD => .instr (.drw (xField w) (yField w) (nField w))
  | 0xE => decodeFamilyE w
  | _ => decodeFamilyF w

/-- The word of two bytes in fetch order, the first byte as bits 15..8 (R57, R80). -/
def wordOfBytes (hi lo : Byte) : Word := hi ++ lo

/-- The first byte of a word in memory, bits 15..8 (R57). -/
def highByte (w : Word) : Byte := BitVec.ofNat 8 (bits w 15 8)

/-- The second byte of a word in memory, bits 7..0 (R57). -/
def lowByte (w : Word) : Byte := BitVec.ofNat 8 (bits w 7 0)

/-- Why a byte sequence holds no instruction at its front. -/
inductive DecodeError where
  /-- Fewer than the two bytes every instruction has (R80). Raised by `decodeBytes`; safe. -/
  | truncated
  deriving DecidableEq, Repr

/-- Decode the instruction at the front of a byte sequence, and the bytes after it. Total: every two bytes reach a
handler (R92), and a shorter sequence is rejected by name. -/
def decodeBytes : List Byte → Except DecodeError (Handler × List Byte)
  | hi :: lo :: rest => .ok (decode (wordOfBytes hi lo), rest)
  | [_] => .error .truncated
  | [] => .error .truncated

/-- A word from its four nibbles, the top one first (R81). -/
def wordOfNibbles (op a b c : Nat) : Word := BitVec.ofNat 16 (op * 4096 + a * 256 + b * 16 + c)

/-- A word of format XK: op, register, byte (R81). -/
def wordXK (op : Nat) (x : RegIdx) (kk : Byte) : Word := BitVec.ofNat 16 (op * 4096 + x.val * 256 + kk.toNat)

/-- A word of format A: op, address (R81). -/
def wordA (op : Nat) (nnn : Addr) : Word := BitVec.ofNat 16 (op * 4096 + nnn.toNat)

/-- The canonical word of an instruction (R84-R88; SHR and SHL with y = x, R95). -/
def encode : Instr → Word
  | .cls => 0x00E0
  | .ret => 0x00EE
  | .jp nnn => wordA 0x1 nnn
  | .call nnn => wordA 0x2 nnn
  | .seVxKk x kk => wordXK 0x3 x kk
  | .sneVxKk x kk => wordXK 0x4 x kk
  | .seVxVy x y => wordOfNibbles 0x5 x y 0x0
  | .ldVxKk x kk => wordXK 0x6 x kk
  | .addVxKk x kk => wordXK 0x7 x kk
  | .ldVxVy x y => wordOfNibbles 0x8 x y 0x0
  | .orVxVy x y => wordOfNibbles 0x8 x y 0x1
  | .andVxVy x y => wordOfNibbles 0x8 x y 0x2
  | .xorVxVy x y => wordOfNibbles 0x8 x y 0x3
  | .addVxVy x y => wordOfNibbles 0x8 x y 0x4
  | .subVxVy x y => wordOfNibbles 0x8 x y 0x5
  | .shrVx x => wordOfNibbles 0x8 x x 0x6
  | .subnVxVy x y => wordOfNibbles 0x8 x y 0x7
  | .shlVx x => wordOfNibbles 0x8 x x 0xE
  | .sneVxVy x y => wordOfNibbles 0x9 x y 0x0
  | .ldI nnn => wordA 0xA nnn
  | .jpV0 nnn => wordA 0xB nnn
  | .rnd x kk => wordXK 0xC x kk
  | .drw x y n => wordOfNibbles 0xD x y n
  | .skp x => wordOfNibbles 0xE x 0x9 0xE
  | .sknp x => wordOfNibbles 0xE x 0xA 0x1
  | .ldVxDt x => wordOfNibbles 0xF x 0x0 0x7
  | .ldVxK x => wordOfNibbles 0xF x 0x0 0xA
  | .ldDtVx x => wordOfNibbles 0xF x 0x1 0x5
  | .ldStVx x => wordOfNibbles 0xF x 0x1 0x8
  | .addIVx x => wordOfNibbles 0xF x 0x1 0xE
  | .ldFVx x => wordOfNibbles 0xF x 0x2 0x9
  | .ldBVx x => wordOfNibbles 0xF x 0x3 0x3
  | .ldMemVx x => wordOfNibbles 0xF x 0x5 0x5
  | .ldVxMem x => wordOfNibbles 0xF x 0x6 0x5

/-- The bytes of an instruction as memory holds them, the byte at the lower address first (R57). -/
def encodeBytes (i : Instr) : List Byte := [highByte (encode i), lowByte (encode i)]

/-- The bytes, in address order, of a table word: `w` numbered as spec/opcode_table.json numbers it, of which the low
`nbits` bits are given and every bit above them is 0 (R57). -/
def tableBytes (nbits w : Nat) : List Byte :=
  [highByte (BitVec.ofNat 16 (w % 2 ^ nbits)), lowByte (BitVec.ofNat 16 (w % 2 ^ nbits))]

/-- The instruction the decoder reads from a table word; none where the word is unmapped (R91). -/
def decodeTableWord (nbits w : Nat) : Option Instr :=
  match decodeBytes (tableBytes nbits w) with
  | .ok (.instr i, _) => some i
  | .ok (.nop, _) => none
  | .error _ => none

end Sys2Proof
end

