-- ==== Sys2Proof/Config.lean ====
section
/-! DEFINITION. The parameters of this hardware that are addresses and lengths (spec/00_scope.md R4; the sizes of the
register file, the stack, the display and the key vector stand in the types of State.lean), and the free values: the
inputs the environment offers to each step, of which nothing is known. -/

namespace Sys2Proof

/-- FONT_BASE: the font's first address (R4, R52). -/
abbrev Config.fontBase : Nat := 0x050

/-- PROG_BASE: where a program is loaded (R4, R331). -/
abbrev Config.progBase : Nat := 0x200

/-- PROG_MAX: the longest program that loads, 4096 - 512 bytes (R4, R331). -/
abbrev Config.progMax : Nat := 3584

/-- FREE VALUE (R32, R246): the key vector the environment offers to the step numbered by the argument,
where the state lists no input for it. Entry k is true when key k is pressed. Log 17. -/
opaque Config.keys : Nat → Vector Bool 16

/-- FREE VALUE (R33, R162): the random byte the environment offers to the step numbered by the argument,
where the state lists no input for it. Log 18. -/
opaque Config.rnd : Nat → Byte

end Sys2Proof
end

