-- ==== Sys2Proof/Machine/State.lean ====
section
/-! DEFINITION. The state of the core (spec/10_state.md R20-R38), the reasons a step can stop, and the state after reset.
INVENTORY.md, heading State, lists every field with its rule. -/

namespace Sys2Proof.Machine

/-- The six fault causes of spec/60_exceptions.md R301. Taking a fault is a NEXT state whose latch holds the cause (R302), so
no step answers `Host.Outcome.fault`; these are the causes the latch records. All are safe: the core stops where the
real software's behaviour is not known (D5, D6, D8; logs 5, 6, 7). -/
inductive Fault where
  /-- Code 1, raised by CALL with SP = 16 (R123). Safe. -/
  | stackOverflow
  /-- Code 2, raised by RET with SP = 0 (R121). Safe. -/
  | stackUnderflow
  /-- Code 3, raised by the fetch of a step with PC > 0xFFE (R271). Safe. -/
  | fetchOutOfRange
  /-- Code 4, raised by DRW and LD Vx,[I] when an address read is above 0xFFF (R221, R195). Safe. -/
  | readOutOfRange
  /-- Code 5, raised by LD B,Vx and LD [I],Vx when an address written is above 0xFFF (R193, R194). Safe. -/
  | writeOutOfRange
  /-- Code 6, raised by SKP and SKNP when V[x] > 0x0F (R240, R241). Safe. -/
  | keyOutOfRange
  deriving DecidableEq, Repr

/-- Why the model gives no outcome. -/
inductive Refusal where
  /-- Raised by an arm of `exec` whose instruction has no meaning yet; no arm raises it. Safe. -/
  | notModelled (mnemonic : String)
  /-- Raised by CALL and RET when SP is above 16, a value R25 calls illegal and no run reaches (log 28). Safe. -/
  | illegalStackPointer
  /-- Raised by `loadProgram` after a load, after the first step or with a fault latched, which R332 places outside the
  spec: "a model refuses it" (log 20). Safe. -/
  | loadOutsideLifecycle
  deriving DecidableEq, Repr

/-- What the fault latch records: the cause, the PC at the start of the faulting step, and the info of R301. -/
structure FaultRecord where
  cause : Fault
  faultPc : Word
  info : Nat
  deriving DecidableEq, Repr

/-- The inputs of one step: the 16-entry key vector, entry k true when key k is pressed (R32), and the random
byte (R33). -/
structure StepInput where
  keys : Vector Bool 16
  rnd : Byte
  deriving DecidableEq, Repr

/-- Where a session is in the lifecycle of R332. -/
inductive Phase where
  /-- `initialize` has been called; no program is loaded and no step taken. -/
  | initialized
  /-- A program is loaded; no step taken. -/
  | loaded
  /-- A step has completed. -/
  | running
  deriving DecidableEq, Repr

/-- The 4096-byte memory (R28, R50) as a list of (address, byte) pairs in one canonical form: see `Memory.wf`. -/
abbrev Memory := List Host.Cell

/-- The display buffer (R27): 32 rows from top to bottom, each of 64 pixels from left to right, true for on. -/
abbrev Display := Vector (Vector Bool 64) 32

/-- The state of one core. -/
structure State where
  /-- V0..VF (R20). -/
  v : Vector Byte 16
  /-- The index register (R22). -/
  i : Word
  /-- The program counter (R23): between steps the address of the next instruction, during the execute phase the
  address of the executing instruction plus 2. -/
  pc : Word
  /-- The return-address stack (R24). -/
  stack : Vector Word 16
  /-- The stack pointer, the number of occupied stack entries (R25). -/
  sp : BitVec 8
  /-- The delay timer (R26). -/
  dt : Byte
  /-- The sound timer (R26). -/
  st : Byte
  /-- Memory (R28). -/
  mem : Memory
  /-- The display buffer (R27). -/
  display : Display
  /-- The fault latch (R30). -/
  fault : Option FaultRecord
  /-- The inputs of the coming steps, first one first; a step after the last listed one takes the free values of Config
  (R32, R33; the model's own field, log 17). -/
  inputs : List StepInput
  /-- The counter at which the free values are read (the model's own field, logs 17 and 18). -/
  tick : Nat
  /-- The lifecycle phase (R332; the model's own field, log 20). -/
  phase : Phase
  deriving DecidableEq, Repr

/-- The state after `initialize()` (R38, R330): memory lists nothing, so it reads as the reset contents, the font and
zeros. `inputs`, `tick` and `phase` are the model's (logs 17, 18, 20). -/
def State.reset : State where
  v := Vector.replicate 16 0
  i := 0
  pc := 0x200
  stack := Vector.replicate 16 0
  sp := 0
  dt := 0
  st := 0
  mem := []
  display := Vector.replicate 32 (Vector.replicate 64 false)
  fault := none
  inputs := []
  tick := 0
  phase := .initialized

end Sys2Proof.Machine
end

