-- ==== Sys2Proof/Machine/Ops.lean ====
section
/-! DEFINITION. The named operations over memory, the display, the registers and the stack, and TAKING A FAULT, the one
shared operation of spec/60_exceptions.md R302. There is no return from a fault (R306); the way out is
`initialize` (Boot.lean). -/

namespace Sys2Proof.Machine

/-! ### Memory (spec/20_memory.md) -/

/-- The byte at address `a`: the listed one, else the reset contents (R54, R62). Callers check the range first. -/
def Memory.read : Memory → Nat → Byte
  | [], a => resetByte a
  | c :: m, a => if c.1 = a then c.2 else Memory.read m a

/-- The memory with nothing listed at `a`. -/
def Memory.erase (m : Memory) (a : Nat) : Memory := m.filter fun c => c.1 != a

/-- The memory with `(a, b)` listed before the first greater address. -/
def Memory.insert : Memory → Nat → Byte → Memory
  | [], a, b => [(a, b)]
  | c :: m, a, b => if a < c.1 then (a, b) :: c :: m else c :: Memory.insert m a b

/-- Write byte `b` at `a` (R55), keeping the canonical form: a byte equal to the reset contents is not listed. Every
region is writable (log 15). Callers check the range first. -/
def Memory.write (m : Memory) (a : Nat) (b : Byte) : Memory :=
  if b = resetByte a then Memory.erase m a else Memory.insert (Memory.erase m a) a b

/-- Write bytes at `base`, `base + 1`, … in this order. -/
def Memory.writeBytes (m : Memory) (base : Nat) : List Byte → Memory
  | [] => m
  | b :: bs => Memory.writeBytes (m.write base b) (base + 1) bs

/-- The canonical form: addresses strictly rising, every address one of the 4096 (R50), no entry equal to the reset
contents of its address. -/
abbrev Memory.wf (m : Memory) : Prop :=
  m.Pairwise (fun c d => c.1 < d.1) ∧ ∀ c ∈ m, c.1 < 0x1000 ∧ c.2 ≠ resetByte c.1

/-- An access to `count` bytes from `base`, the address computed as a natural number (R56), touches no address above
0xFFF (R54, R55). An access to no byte is in range (R221, n = 0). -/
abbrev InRange (base count : Nat) : Prop := count = 0 ∨ base + count ≤ 0x1000

/-- The least out-of-range address of an access from `base` that is not in range (R301, R305). -/
def leastOutOfRange (base : Nat) : Nat := max base 0x1000

/-! ### The display buffer (spec/10_state.md R27) -/

/-- The pixel at column x, row y. -/
def Display.pix (d : Display) (x : Fin 64) (y : Fin 32) : Bool := d[y][x]

/-- The display with the pixel at column x, row y toggled. -/
def Display.toggle (d : Display) (x : Fin 64) (y : Fin 32) : Display := d.set y (d[y].set x (!Display.pix d x y))

/-- Every pixel off. -/
def Display.blank : Display := Vector.replicate 32 (Vector.replicate 64 false)

/-! ### Registers -/

/-- Read `V[x]` (R20). -/
def State.getV (s : State) (x : RegIdx) : Byte := s.v[x]

/-- Write `V[x]` (R20): no register is hard-wired. -/
def State.setV (s : State) (x : RegIdx) (b : Byte) : State := { s with v := s.v.set x b }

/-- Write all of V0..VF. -/
def State.setVs (s : State) (vs : Vector Byte 16) : State := { s with v := vs }

/-- Write I (R22). -/
def State.setI (s : State) (a : Word) : State := { s with i := a }

/-- Write PC (R23); no alignment or range is enforced (R129). -/
def State.setPc (s : State) (a : Word) : State := { s with pc := a }

/-- Write SP (R25). -/
def State.setSp (s : State) (n : BitVec 8) : State := { s with sp := n }

/-- Write the return-address stack (R24). -/
def State.setStack (s : State) (k : Vector Word 16) : State := { s with stack := k }

/-- Write DT (R26). -/
def State.setDt (s : State) (b : Byte) : State := { s with dt := b }

/-- Write ST (R26). -/
def State.setSt (s : State) (b : Byte) : State := { s with st := b }

/-- Replace memory (R28). -/
def State.setMem (s : State) (m : Memory) : State := { s with mem := m }

/-- Replace the display buffer (R27). -/
def State.setDisplay (s : State) (d : Display) : State := { s with display := d }

/-- Write the fault latch (R30). -/
def State.setFault (s : State) (f : Option FaultRecord) : State := { s with fault := f }

/-- Add `d` to PC modulo 65536 (R23, R272). -/
def State.addPc (s : State) (d : Word) : State := s.setPc (s.pc + d)

/-- `PC <- PC - 2`: back to the executing instruction (R243, R302). -/
def State.backPc (s : State) : State := s.setPc (s.pc - 2)

/-! ### The inputs of a step -/

/-- The inputs the step samples at its start (R246, R33): the first listed ones, else the free values of the
environment (logs 17, 18). No handler changes them, so they stay the sampled ones throughout the step. -/
def State.input (s : State) : StepInput :=
  match s.inputs with
  | inp :: _ => inp
  | [] => { keys := Config.keys s.tick, rnd := Config.rnd s.tick }

/-! ### Taking a fault (spec/60_exceptions.md R302) -/

/-- Fault entry, from the state at the START of the step: every piece of state is kept and the latch records the cause,
the PC at the start of the step and the info. -/
def State.latchFault (s0 : State) (cause : Fault) (info : Nat) : State :=
  s0.setFault (some { cause := cause, faultPc := s0.pc, info := info })

/-- `raise Fault(cause, info)` in the execute phase (R7): every rule makes its checks before its first write, so the
state at the start of the step is this one with the PC advance of R272 taken back. The entry is a next state. -/
def raise (cause : Fault) (info : Nat) (s : State) : Host.Outcome State Fault Refusal :=
  .next (s.backPc.latchFault cause info)

end Sys2Proof.Machine
end

