-- ==== Sys2Proof/Machine/Cycle.lean ====
section
/-! DEFINITION. The parts of the cycle around an instruction (spec/46_cycle_driver.md): fetch, PC advance, the no-op
handler, timer decay and the end of a step. `step` (Step.lean) only calls them. -/

namespace Sys2Proof.Machine

/-- `Fetch(PC)` (R271): the big-endian word at PC, none where PC > 0xFFE. -/
def State.fetch (s : State) : Option Word :=
  if s.pc.toNat ≤ 0xFFE then some (wordOfBytes (s.mem.read s.pc.toNat) (s.mem.read (s.pc.toNat + 1))) else none

/-- PC is advanced by 2 after the fetch and before dispatch, for every handler (R272). -/
def State.advance (s : State) : State := s.addPc 2

/-- The handler of every unmapped word writes nothing (R91). -/
def execNop (s : State) : Host.Outcome State Fault Refusal := .next s

/-- A timer after one decay: one less, and 0 stays 0 (R274). -/
def decayed (t : Byte) : Byte := if t = 0 then 0 else t - 1

/-- The end of a step that did not fault: both timers decay, independently (R274); the step's input is used up and the
session is running (the model's fields, logs 17, 20). A step whose handler faulted commits nothing more (R302). -/
def State.endCycle (s : State) : State :=
  if s.fault.isSome then s
  else { s with dt := decayed s.dt, st := decayed s.st, inputs := s.inputs.tail, tick := s.tick + 1, phase := .running }

/-- The outcome of a step from its handler's outcome (R270). -/
def finishStep : Host.Outcome State Fault Refusal → Host.Outcome State Fault Refusal
  | .next s => .next s.endCycle
  | .fault f => .fault f
  | .refused r => .refused r

end Sys2Proof.Machine
end

