-- ==== Sys2Proof/Machine/Flags.lean ====
section
/-! DEFINITION. The flag computations and the flag write (spec/10_state.md R21, spec/42_alu.md R150). VF is the only flag. -/

namespace Sys2Proof.Machine

/-- A flag as the byte VF holds: 1 or 0. -/
def flagByte (f : Bool) : Byte := if f then 1 else 0

/-- Carry out of an 8-bit addition: the exact sum exceeds 255 (R157). -/
def carryFlag (a b : Byte) : Bool := decide (a.toNat + b.toNat > 255)

/-- No borrow in `a - b`: a ≥ b, equality included (R158, R160). -/
def noBorrowFlag (a b : Byte) : Bool := decide (a.toNat ≥ b.toNat)

/-- The bit SHR shifts out: bit 0 before the shift (R159). -/
def shiftedOutRight (a : Byte) : Bool := a.getLsbD 0

/-- The bit SHL shifts out: bit 7 before the shift (R161). -/
def shiftedOutLeft (a : Byte) : Bool := a.getLsbD 7

/-- Write the flag (R21). -/
def State.setVF (s : State) (f : Bool) : State := s.setV vF (flagByte f)

/-- VF_ORDER: the result goes to `V[x]` first and the flag to VF second, so with x = 0xF the flag is the final value of
VF (R150; log 9). -/
def State.setResultAndFlag (s : State) (x : RegIdx) (result : Byte) (f : Bool) : State := (s.setV x result).setVF f

end Sys2Proof.Machine
end

