-- ==== Sys2Proof/Machine/Operands.lean ====
section
/-! DEFINITION. The operand forms (spec/30_encoding.md R82): registers are read by `State.getV`; here are the immediate
address, the skip, the font glyph address, the decimal digits, the registers of a block transfer and the key operands. -/

namespace Sys2Proof.Machine

/-- `zext_16(nnn)`: the address immediate is zero-extended (R82). -/
def addrOperand (nnn : Addr) : Word := nnn.setWidth 16

/-- A byte register added to a 16-bit value, zero-extended, modulo 65536 (R128, R191). -/
def addByte (a : Word) (b : Byte) : Word := a + b.setWidth 16

/-- `skip` when the condition holds: PC moves 2 further (R7, R120). -/
def State.skipIf (s : State) (taken : Bool) : State := if taken then s.addPc 2 else s

/-- The address of the glyph of `b`, with the full byte and no masking (R192; log 12). -/
def glyphAddress (b : Byte) : Word := BitVec.ofNat 16 (Config.fontBase + 5 * b.toNat)

/-- The hundreds, tens and ones of a byte, in address order (R57, R193). -/
def decimalDigits (b : Byte) : List Byte :=
  [BitVec.ofNat 8 (b.toNat / 100), BitVec.ofNat 8 (b.toNat / 10 % 10), BitVec.ofNat 8 (b.toNat % 10)]

/-- V0..Vx in order, the bytes LD [I],Vx stores (R194). -/
def State.regsUpTo (s : State) (x : RegIdx) : List Byte := s.v.toList.take (x.val + 1)

/-- V0..VF after V0..Vx are loaded from the bytes at `base`, `base + 1`, … (R195). -/
def State.regsLoaded (s : State) (x : RegIdx) (base : Nat) : Vector Byte 16 :=
  Vector.ofFn fun r : RegIdx => if r ≤ x then s.mem.read (base + r.val) else s.getV r

/-- The state of key k as sampled at the start of the step; none where no key has that number (R240, R246). -/
def State.keyOperand (s : State) (k : Nat) : Option Bool := s.input.keys[k]?

/-- KEY_SELECT: the least-numbered pressed key, none where no key is pressed (R243; log 8). -/
def leastPressed (keys : Vector Bool 16) : Option (Fin 16) :=
  (List.finRange 16).find? fun k => keys[k]

end Sys2Proof.Machine
end

