-- ==== Sys2Proof/Machine/Control.lean ====
section
/-! DEFINITION. Control transfer and skips (spec/41_control_flow.md). In the execute phase PC is already the address of the
instruction plus 2 (R120). -/

namespace Sys2Proof.Machine

/-- RET (R121): the popped entry keeps its value (R24; log 21). SP above 16 is illegal (R25; log 28). -/
def execRet (s : State) : Host.Outcome State Fault Refusal :=
  if s.sp = 0 then raise .stackUnderflow s.sp.toNat s
  else match s.stack[s.sp.toNat - 1]? with
    | some a => .next ((s.setSp (s.sp - 1)).setPc a)
    | none => .refused .illegalStackPointer

/-- JP nnn (R122). -/
def execJp (nnn : Addr) (s : State) : Host.Outcome State Fault Refusal :=
  .next (s.setPc (addrOperand nnn))

/-- CALL nnn (R123): PC, the address of the CALL plus 2, is pushed. SP above 16 is illegal (R25; log 28). -/
def execCall (nnn : Addr) (s : State) : Host.Outcome State Fault Refusal :=
  if s.sp.toNat = 16 then raise .stackOverflow s.sp.toNat s
  else if h : s.sp.toNat < 16 then
    .next (((s.setStack (s.stack.set s.sp.toNat s.pc h)).setSp (s.sp + 1)).setPc (addrOperand nnn))
  else .refused .illegalStackPointer

/-- SE Vx,kk (R124). -/
def execSeVxKk (x : RegIdx) (kk : Byte) (s : State) : Host.Outcome State Fault Refusal :=
  .next (s.skipIf (s.getV x == kk))

/-- SNE Vx,kk (R125). -/
def execSneVxKk (x : RegIdx) (kk : Byte) (s : State) : Host.Outcome State Fault Refusal :=
  .next (s.skipIf (s.getV x != kk))

/-- SE Vx,Vy (R126). -/
def execSeVxVy (x y : RegIdx) (s : State) : Host.Outcome State Fault Refusal :=
  .next (s.skipIf (s.getV x == s.getV y))

/-- SNE Vx,Vy (R127). -/
def execSneVxVy (x y : RegIdx) (s : State) : Host.Outcome State Fault Refusal :=
  .next (s.skipIf (s.getV x != s.getV y))

/-- JP V0,nnn (R128): the sum is not reduced modulo 4096. -/
def execJpV0 (nnn : Addr) (s : State) : Host.Outcome State Fault Refusal :=
  .next (s.setPc (addByte (addrOperand nnn) (s.getV v0)))

end Sys2Proof.Machine
end

