-- ==== Sys2Proof/Machine/Framebuffer.lean ====
section
/-! DEFINITION. The framebuffer controller (spec/44_display.md): CLS and DRW. -/

namespace Sys2Proof.Machine

/-- What DRW's loops carry: the display and the collision flag (R221). -/
structure Draw where
  display : Display
  collision : Bool
  deriving DecidableEq, Repr

/-- One sprite bit that is 1, at column x and row y: a pixel that goes from on to off is a collision (R221). -/
def drawPixel (x : Fin 64) (y : Fin 32) (p : Draw) : Draw :=
  { display := p.display.toggle x y, collision := p.collision || p.display.pix x y }

/-- Column c of a sprite row is bit 7 - c of its byte (R222; log 3). -/
def spriteBit (b : Byte) (c : Nat) : Bool := b.getLsbD (7 - c)

/-- One row of a sprite, columns 0..7 from left to right, each wrapped modulo 64 (R221; log 4). -/
def drawRow (x0 : Nat) (y : Fin 32) (b : Byte) (p : Draw) : Draw :=
  (List.range 8).foldl (fun q c => if spriteBit b c then drawPixel (Fin.ofNat 64 (x0 + c)) y q else q) p

/-- Rows 0..n-1 of the sprite at `base`, from top to bottom, each wrapped modulo 32 (R221; log 4). -/
def drawSprite (m : Memory) (base x0 y0 n : Nat) (p : Draw) : Draw :=
  (List.range n).foldl (fun q r => drawRow x0 (Fin.ofNat 32 (y0 + r)) (m.read (base + r)) q) p

/-- The origin of a sprite: `V[x] mod 64`, `V[y] mod 32` (R221). -/
def State.spriteOrigin (s : State) (x y : RegIdx) : Nat × Nat := ((s.getV x).toNat % 64, (s.getV y).toNat % 32)

/-- CLS (R220). -/
def execCls (s : State) : Host.Outcome State Fault Refusal :=
  .next (s.setDisplay Display.blank)

/-- DRW Vx,Vy,n (R221): the flag is written after all pixels; n = 0 reads nothing and sets VF = 0. -/
def execDrw (x y : RegIdx) (n : Fin 16) (s : State) : Host.Outcome State Fault Refusal :=
  if InRange s.i.toNat n then
    let o := s.spriteOrigin x y
    let p := drawSprite s.mem s.i.toNat o.1 o.2 n { display := s.display, collision := false }
    .next ((s.setDisplay p.display).setVF p.collision)
  else raise .readOutOfRange (leastOutOfRange s.i.toNat) s

end Sys2Proof.Machine
end

