-- ==== Sys2Proof/Machine/Keypad.lean ====
section
/-! DEFINITION. The keypad and timer instructions (spec/45_timers_keypad.md). They execute before the step's timer decay. -/

namespace Sys2Proof.Machine

/-- SKP Vx (R240): no key has a number above 0xF (log 7). -/
def execSkp (x : RegIdx) (s : State) : Host.Outcome State Fault Refusal :=
  match s.keyOperand (s.getV x).toNat with
  | some pressed => .next (s.skipIf pressed)
  | none => raise .keyOutOfRange (s.getV x).toNat s

/-- SKNP Vx (R241; log 7). -/
def execSknp (x : RegIdx) (s : State) : Host.Outcome State Fault Refusal :=
  match s.keyOperand (s.getV x).toNat with
  | some pressed => .next (s.skipIf (!pressed))
  | none => raise .keyOutOfRange (s.getV x).toNat s

/-- LD Vx,DT (R242): DT before this step's decay. -/
def execLdVxDt (x : RegIdx) (s : State) : Host.Outcome State Fault Refusal :=
  .next (s.setV x s.dt)

/-- LD Vx,K (R243; C4): with no key pressed PC goes back to this instruction. -/
def execLdVxK (x : RegIdx) (s : State) : Host.Outcome State Fault Refusal :=
  match leastPressed s.input.keys with
  | some k => .next (s.setV x (BitVec.ofNat 8 k))
  | none => .next s.backPc

/-- LD DT,Vx (R244). -/
def execLdDtVx (x : RegIdx) (s : State) : Host.Outcome State Fault Refusal :=
  .next (s.setDt (s.getV x))

/-- LD ST,Vx (R245). -/
def execLdStVx (x : RegIdx) (s : State) : Host.Outcome State Fault Refusal :=
  .next (s.setSt (s.getV x))

end Sys2Proof.Machine
end

