-- ==== Sys2Proof/Machine/Transfer.lean ====
section
/-! DEFINITION. The index register and memory transfers (spec/43_index_memory.md). Every data access is to I + k, computed
exactly (R196), and every check comes before the first write. -/

namespace Sys2Proof.Machine

/-- LD I,nnn (R190). -/
def execLdI (nnn : Addr) (s : State) : Host.Outcome State Fault Refusal :=
  .next (s.setI (addrOperand nnn))

/-- ADD I,Vx (R191): modulo 65536, no flag. -/
def execAddIVx (x : RegIdx) (s : State) : Host.Outcome State Fault Refusal :=
  .next (s.setI (addByte s.i (s.getV x)))

/-- LD F,Vx (R192). -/
def execLdFVx (x : RegIdx) (s : State) : Host.Outcome State Fault Refusal :=
  .next (s.setI (glyphAddress (s.getV x)))

/-- LD B,Vx (R193): hundreds, tens and ones at I, I+1, I+2. -/
def execLdBVx (x : RegIdx) (s : State) : Host.Outcome State Fault Refusal :=
  if InRange s.i.toNat 3 then .next (s.setMem (s.mem.writeBytes s.i.toNat (decimalDigits (s.getV x))))
  else raise .writeOutOfRange (leastOutOfRange s.i.toNat) s

/-- LD [I],Vx (R194): V0..Vx to memory from I; I is unchanged (log 11). -/
def execLdMemVx (x : RegIdx) (s : State) : Host.Outcome State Fault Refusal :=
  if InRange s.i.toNat (x.val + 1) then .next (s.setMem (s.mem.writeBytes s.i.toNat (s.regsUpTo x)))
  else raise .writeOutOfRange (leastOutOfRange s.i.toNat) s

/-- LD Vx,[I] (R195): memory from I to V0..Vx; I is unchanged (log 11). -/
def execLdVxMem (x : RegIdx) (s : State) : Host.Outcome State Fault Refusal :=
  if InRange s.i.toNat (x.val + 1) then .next (s.setVs (s.regsLoaded x s.i.toNat))
  else raise .readOutOfRange (leastOutOfRange s.i.toNat) s

end Sys2Proof.Machine
end

