-- ==== Sys2Proof/Machine/Step.lean ====
section
/-! DEFINITION. One call of `step()` (spec/46_cycle_driver.md R270). -/

namespace Sys2Proof.Machine

/-- Run the handler decode chose, on the state after the PC advance (R273). -/
def runHandler (h : Handler) (s : State) : Host.Outcome State Fault Refusal :=
  match h with
  | .instr i => exec i s
  | .nop => execNop s

/-- One cycle (R270): a halted core changes nothing (R303); a fetch out of range faults before anything is decoded (R271,
R305); otherwise fetch, advance, decode, execute, decay. The step's inputs are in the state (log 17). -/
def step (s : State) : Host.Outcome State Fault Refusal :=
  match s.fault with
  | some _ => .next s
  | none =>
    match s.fetch with
    | none => .next (s.latchFault .fetchOutOfRange s.pc.toNat)
    | some w => finishStep (runHandler (decode w) s.advance)

/-- The state with the table word `w` stored where `step` fetches: its first byte at PC, its second at PC + 1, as a loader
would place it. Where PC > 0xFFE no word can be fetched and nothing is stored (R271). -/
def State.withFetchWord (s : State) (nbits w : Nat) : State :=
  if s.pc.toNat ≤ 0xFFE then s.setMem (s.mem.writeBytes s.pc.toNat (tableBytes nbits w)) else s

end Sys2Proof.Machine
end

