-- ==== Sys2Proof/WellFormed.lean ====
section
/-! DEFINITION. The range checks on operands (spec/30_encoding.md R81, spec/00_scope.md R9) and on the program a host
offers (spec/70_reset_and_hazards.md R331). The operand types of `Instr` carry their own ranges, so `Instr.wf`
holds of every instruction (Laws/WellFormed.lean proves it); the checks themselves are on plain numbers and
refuse what does not fit its field. -/

namespace Sys2Proof

/-- A register index names one of V0..VF: it fits the 4-bit field x or y (R20, R81). -/
def registerOk (r : Nat) : Bool := decide (r ≤ 15)

/-- The row count n of DRW fits w[3:0] (R81, R82). -/
def rowsOk (n : Nat) : Bool := decide (n ≤ 15)

/-- The immediate kk fits w[7:0] (R81). -/
def byteOk (kk : Nat) : Bool := decide (kk ≤ 0xFF)

/-- The address nnn fits w[11:0] (R81). -/
def addrOk (nnn : Nat) : Bool := decide (nnn ≤ 0xFFF)

/-- A program of this many bytes fits 0x200-0xFFF: at most 3584 bytes, 0 accepted (R331). -/
def programOk (bytes : List Byte) : Bool := decide (bytes.length ≤ Config.progMax)

/-- Every operand fits the field its format gives it (the formats table of R81). -/
def Instr.wf : Instr → Bool
  | .cls => true
  | .ret => true
  | .jp nnn => addrOk nnn.toNat
  | .call nnn => addrOk nnn.toNat
  | .seVxKk x kk => registerOk x && byteOk kk.toNat
  | .sneVxKk x kk => registerOk x && byteOk kk.toNat
  | .seVxVy x y => registerOk x && registerOk y
  | .ldVxKk x kk => registerOk x && byteOk kk.toNat
  | .addVxKk x kk => registerOk x && byteOk kk.toNat
  | .ldVxVy x y => registerOk x && registerOk y
  | .orVxVy x y => registerOk x && registerOk y
  | .andVxVy x y => registerOk x && registerOk y
  | .xorVxVy x y => registerOk x && registerOk y
  | .addVxVy x y => registerOk x && registerOk y
  | .subVxVy x y => registerOk x && registerOk y
  | .shrVx x => registerOk x
  | .subnVxVy x y => registerOk x && registerOk y
  | .shlVx x => registerOk x
  | .sneVxVy x y => registerOk x && registerOk y
  | .ldI nnn => addrOk nnn.toNat
  | .jpV0 nnn => addrOk nnn.toNat
  | .rnd x kk => registerOk x && byteOk kk.toNat
  | .drw x y n => registerOk x && registerOk y && rowsOk n
  | .skp x => registerOk x
  | .sknp x => registerOk x
  | .ldVxDt x => registerOk x
  | .ldVxK x => registerOk x
  | .ldDtVx x => registerOk x
  | .ldStVx x => registerOk x
  | .addIVx x => registerOk x
  | .ldFVx x => registerOk x
  | .ldBVx x => registerOk x
  | .ldMemVx x => registerOk x
  | .ldVxMem x => registerOk x

end Sys2Proof
end

