-- ==== Sys2Proof/Machine/Boot.lean ====
section
/-! DEFINITION. The host's transactions `initialize()` and `loadProgram(bytes)` and the outputs it reads between steps
(spec/70_reset_and_hazards.md R330-R332, spec/10_state.md R35-R37, spec/60_exceptions.md R301, R304). -/

namespace Sys2Proof.Machine

/-- `initialize()` (R35, R330): every piece of state at its reset value, the fault latch included; the only way out of a
halted core (R303). The environment's inputs are no state of the core and go on (log 25). The phase is initialized again, so
a load is admitted again, also where steps came before: the model's choice (DESIGN CHOICE, log 30). -/
def State.initialize (s : State) : State := { State.reset with inputs := s.inputs, tick := s.tick }

/-- What `loadProgram` reports to its caller (R331, R332). -/
inductive LoadResult where
  /-- The program is in memory. -/
  | loaded (s : State)
  /-- LoadFailure: the program is too long, and nothing is written (R331). It is no core event. -/
  | loadFailure (s : State)
  /-- The call is outside the lifecycle of R332. -/
  | refused (r : Refusal)
  deriving DecidableEq, Repr

/-- A load is admitted between `initialize()` and the first step, at most once (R332; log 20). -/
def State.mayLoad (s : State) : Bool := s.phase == .initialized && s.fault.isNone

/-- `loadProgram(bytes)` (R331): the bytes are copied to memory from 0x200; no register changes and nothing executes. -/
def State.loadProgram (s : State) (bytes : List Byte) : LoadResult :=
  if s.mayLoad then
    if programOk bytes then
      .loaded { s with mem := s.mem.writeBytes Config.progBase bytes, phase := .loaded }
    else .loadFailure s
  else .refused .loadOutsideLifecycle

/-- The display output of one pixel: 0xFFFFFFFF for on, 0x00000000 for off (R37, R223; C11). -/
def State.displayOutput (s : State) (x : Fin 64) (y : Fin 32) : BitVec 32 :=
  if s.display.pix x y then 0xFFFFFFFF else 0x00000000

/-- The sound timer output (R37; what it means for audio is outside the core, R247). -/
def State.soundOutput (s : State) : Byte := s.st

/-- The code of a fault cause (R301). -/
def Fault.code : Fault → Nat
  | .stackOverflow => 1
  | .stackUnderflow => 2
  | .fetchOutOfRange => 3
  | .readOutOfRange => 4
  | .writeOutOfRange => 5
  | .keyOutOfRange => 6

/-- The fault output: the code, the faulting PC and the info, none where no fault is latched (R37, R304). -/
def State.faultOutput (s : State) : Option (Nat × Word × Nat) := s.fault.map fun f => (f.cause.code, f.faultPc, f.info)

end Sys2Proof.Machine
end

