-- ==== Sys2Proof/Safety.lean ====
section
/-! DEFINITION. What counts as a safe run and a good state, in the terms the statements use. -/

namespace Sys2Proof.Machine

/-- A core whose fault latch is set is halted (spec/60_exceptions.md R303). -/
def State.Halted (s : State) : Prop := s.fault.isSome = true

/-- The latched record is explained by the state the fault left in place (R301, R302): the faulting PC is the PC, and the
cause's condition and info are read off the state. -/
def State.Explains (s : State) (f : FaultRecord) : Prop :=
  f.faultPc = s.pc ∧
  match f.cause with
  | .stackOverflow => s.sp.toNat = 16 ∧ f.info = 16
  | .stackUnderflow => s.sp.toNat = 0 ∧ f.info = 0
  | .fetchOutOfRange => s.pc.toNat > 0xFFE ∧ f.info = s.pc.toNat
  | .readOutOfRange => s.i.toNat + 15 > 0xFFF ∧ f.info = max s.i.toNat 0x1000
  | .writeOutOfRange => s.i.toNat + 15 > 0xFFF ∧ f.info = max s.i.toNat 0x1000
  | .keyOutOfRange => ∃ x : RegIdx, f.info = (s.getV x).toNat ∧ f.info > 0xF

/-- What holds of every state a run reaches: memory is canonical and inside 0x000-0xFFF (R50), SP is legal (R25), every
stack entry is a return address, PC never exceeds 0x10FE (R23), and a latched fault is explained by the state. -/
structure State.Inv (s : State) : Prop where
  memory : s.mem.wf
  stackPointer : s.sp.toNat ≤ 16
  returnAddress : ∀ j : Fin 16, s.stack[j].toNat ≤ 0x1000
  programCounter : s.pc.toNat ≤ 0x10FE
  latch : ∀ f, s.fault = some f → s.Explains f

/-- A safe run of `k` steps: the core goes on and no fault is latched at its end (so none was latched on the way, R303). -/
def SafeRun (k : Nat) (s : State) : Prop := ∃ t : State, Host.Core.run Sys2Proof.core k s = .next t ∧ t.fault = none

/-- The separately observable pieces of the state (spec/10_state.md): one constructor for a register, a stack entry, a byte
or a pixel each. -/
inductive Part where
  | reg (r : RegIdx)
  | index
  | pc
  | stack (j : Fin 16)
  | sp
  | delay
  | sound
  | byte (a : Nat)
  | pixel (x : Fin 64) (y : Fin 32)
  | latch
  /-- The model's own fields: the inputs of the coming steps, the counter and the lifecycle phase. -/
  | session
  deriving DecidableEq, Repr

/-- The piece reads the same in both states; a byte of memory through the model's read of one byte. -/
def Part.Same (s t : State) : Part → Prop
  | .reg r => t.getV r = s.getV r
  | .index => t.i = s.i
  | .pc => t.pc = s.pc
  | .stack j => t.stack[j] = s.stack[j]
  | .sp => t.sp = s.sp
  | .delay => t.dt = s.dt
  | .sound => t.st = s.st
  | .byte a => t.mem.read a = s.mem.read a
  | .pixel x y => t.display.pix x y = s.display.pix x y
  | .latch => t.fault = s.fault
  | .session => t.inputs = s.inputs ∧ t.tick = s.tick ∧ t.phase = s.phase

/-- The frame: every piece of state that `may` does not allow to change is as before. -/
def OnlyChanges (may : Part → Prop) (s t : State) : Prop := ∀ p, ¬ may p → p.Same s t

end Sys2Proof.Machine
end

