-- ==== Sys2Proof/Certificates/Slice0/Obligations.lean ====
section
/-! DEFINITION. The statements for the provers. Every statement names the rule of spec/ it formalises; where a clause rests
on one of the spec's own decisions (spec/92_eei_decisions.md) the docstring names it. `exec` runs in the execute phase,
where PC is the address of the executing instruction plus 2 (spec/41_control_flow.md R120). -/

open Sys2Proof Sys2Proof.Machine

namespace Sys2Proof.Statements

/-- In the execute phase `i` raises the fault: a next state whose latch holds the cause, the address of the faulting
instruction and the info, whose PC is that address again, and everything else as before (R302). -/
def Faults (i : Instr) (s : State) (cause : Fault) (info : Nat) : Prop :=
  ∃ t, exec i s = .next t ∧ t.fault = some ⟨cause, s.pc - 2, info⟩ ∧ t.pc = s.pc - 2 ∧
    OnlyChanges (fun p => p = .latch ∨ p = .pc) s t

/-- `i` completes with V[x] = `r` and nothing else changed. -/
def WritesReg (i : Instr) (s : State) (x : RegIdx) (r : Byte) : Prop :=
  ∃ t, exec i s = .next t ∧ t.getV x = r ∧ OnlyChanges (· = .reg x) s t

/-- `i` completes with result `r` in V[x], then the flag in VF (so with x = 0xF the flag is the final value of VF), and
nothing else changed (R150). -/
def WritesResultAndFlag (i : Instr) (s : State) (x : RegIdx) (r : Nat) (flag : Bool) : Prop :=
  ∃ t, exec i s = .next t ∧ (t.getV vF).toNat = (if flag then 1 else 0) ∧ (x ≠ vF → (t.getV x).toNat = r) ∧
    OnlyChanges (fun p => p = .reg x ∨ p = .reg vF) s t

/-- `i` completes and skips the next instruction exactly if `taken`: PC moves 2 further, nothing else changes (R120). -/
def SkipsIf (i : Instr) (s : State) (taken : Prop) : Prop :=
  ∃ t, exec i s = .next t ∧ (taken → t.pc = s.pc + 2) ∧ (¬ taken → t.pc = s.pc) ∧ OnlyChanges (· = .pc) s t

/-- The unmapped words of R91. -/
def Unmapped (w : Word) : Prop :=
  (bits w 15 12 = 0x0 ∧ bits w 3 0 ∉ [0x0, 0xE]) ∨
  (bits w 15 12 = 0x8 ∧ bits w 3 0 ∈ [0x8, 0x9, 0xA, 0xB, 0xC, 0xD, 0xF]) ∨
  (bits w 15 12 = 0xE ∧ bits w 3 0 ∉ [0x1, 0xE]) ∨
  (bits w 15 12 = 0xF ∧ bits w 7 0 ∉ [0x07, 0x0A, 0x15, 0x18, 0x1E, 0x29, 0x33, 0x55, 0x65])

/-- The pixel at (px, py) is reached by a 1 bit of the n-row sprite at I drawn at (V[x] mod 64, V[y] mod 32): some row r
and column c, bit 7 - c of M[I + r], land there, each axis wrapped (R221, R222). -/
def SpriteCovers (s : State) (x y : RegIdx) (n : Nat) (px : Fin 64) (py : Fin 32) : Prop :=
  ∃ r c : Nat, r < n ∧ c < 8 ∧ (s.mem.read (s.i.toNat + r)).getLsbD (7 - c) = true ∧
    px.val = ((s.getV x).toNat % 64 + c) % 64 ∧ py.val = ((s.getV y).toNat % 32 + r) % 32

/-- The fault a step of a running core raises, by the table of R301 and the priority of R305: cause and info. -/
def ruleFault (s : State) : Option (Fault × Nat) :=
  if s.pc.toNat > 0xFFE then some (.fetchOutOfRange, s.pc.toNat)
  else match decode (wordOfBytes (s.mem.read s.pc.toNat) (s.mem.read (s.pc.toNat + 1))) with
    | .instr (.call _) => if s.sp.toNat = 16 then some (.stackOverflow, 16) else none
    | .instr .ret => if s.sp.toNat = 0 then some (.stackUnderflow, 0) else none
    | .instr (.drw _ _ n) =>
      if n.val > 0 ∧ s.i.toNat + n.val - 1 > 0xFFF then some (.readOutOfRange, max s.i.toNat 0x1000) else none
    | .instr (.ldVxMem x) =>
      if s.i.toNat + x.val > 0xFFF then some (.readOutOfRange, max s.i.toNat 0x1000) else none
    | .instr (.ldMemVx x) =>
      if s.i.toNat + x.val > 0xFFF then some (.writeOutOfRange, max s.i.toNat 0x1000) else none
    | .instr (.ldBVx _) => if s.i.toNat + 2 > 0xFFF then some (.writeOutOfRange, max s.i.toNat 0x1000) else none
    | .instr (.skp x) => if (s.getV x).toNat > 0xF then some (.keyOutOfRange, (s.getV x).toNat) else none
    | .instr (.sknp x) => if (s.getV x).toNat > 0xF then some (.keyOutOfRange, (s.getV x).toNat) else none
    | _ => none

/-- The pieces of state an instruction writes where it does not fault (R20-R27 and its own rule). -/
def writes (s : State) : Instr → Part → Prop
  | .cls, p => ∃ x y, p = .pixel x y
  | .ret, p => p = .sp ∨ p = .pc
  | .jp _, p => p = .pc
  | .call _, p => p = .pc ∨ p = .sp ∨ ∃ j : Fin 16, p = .stack j ∧ j.val = s.sp.toNat
  | .seVxKk _ _, p => p = .pc
  | .sneVxKk _ _, p => p = .pc
  | .seVxVy _ _, p => p = .pc
  | .ldVxKk x _, p => p = .reg x
  | .addVxKk x _, p => p = .reg x
  | .ldVxVy x _, p => p = .reg x
  | .orVxVy x _, p => p = .reg x
  | .andVxVy x _, p => p = .reg x
  | .xorVxVy x _, p => p = .reg x
  | .addVxVy x _, p => p = .reg x ∨ p = .reg vF
  | .subVxVy x _, p => p = .reg x ∨ p = .reg vF
  | .shrVx x, p => p = .reg x ∨ p = .reg vF
  | .subnVxVy x _, p => p = .reg x ∨ p = .reg vF
  | .shlVx x, p => p = .reg x ∨ p = .reg vF
  | .sneVxVy _ _, p => p = .pc
  | .ldI _, p => p = .index
  | .jpV0 _, p => p = .pc
  | .rnd x _, p => p = .reg x
  | .drw _ _ _, p => p = .reg vF ∨ ∃ x y, p = .pixel x y
  | .skp _, p => p = .pc
  | .sknp _, p => p = .pc
  | .ldVxDt x, p => p = .reg x
  | .ldVxK x, p => p = .reg x ∨ p = .pc
  | .ldDtVx _, p => p = .delay
  | .ldStVx _, p => p = .sound
  | .addIVx _, p => p = .index
  | .ldFVx _, p => p = .index
  | .ldBVx _, p => ∃ k, k < 3 ∧ p = .byte (s.i.toNat + k)
  | .ldMemVx x, p => ∃ k, k ≤ x.val ∧ p = .byte (s.i.toNat + k)
  | .ldVxMem x, p => ∃ r : RegIdx, r ≤ x ∧ p = .reg r

/-- The addresses an instruction's execute phase reads (R59). -/
def readsByte (s : State) : Instr → Nat → Prop
  | .drw _ _ n, a => s.i.toNat ≤ a ∧ a < s.i.toNat + n.val
  | .ldVxMem x, a => s.i.toNat ≤ a ∧ a ≤ s.i.toNat + x.val
  | _, _ => False

/-- The addresses an instruction's execute phase writes (R59). -/
def writesByte (s : State) : Instr → Nat → Prop
  | .ldBVx _, a => s.i.toNat ≤ a ∧ a ≤ s.i.toNat + 2
  | .ldMemVx x, a => s.i.toNat ≤ a ∧ a ≤ s.i.toNat + x.val
  | _, _ => False

/-- The instructions that use the step's inputs: the random byte (R162) or the key vector (R240, R241, R243). -/
def usesInput : Instr → Prop
  | .rnd _ _ => True
  | .skp _ => True
  | .sknp _ => True
  | .ldVxK _ => True
  | _ => False

/-- Two outcomes are next states that agree on every piece but those listed, or the same refusal. -/
def AgreeBut (but : Part → Prop) (o o' : Host.Outcome State Fault Refusal) : Prop :=
  (∃ t t', o = .next t ∧ o' = .next t' ∧ OnlyChanges but t t') ∨ (∃ r, o = .refused r ∧ o' = .refused r)

/-- The byte at `a` once V0..Vx of `s` stand at I, I+1, … (R194). -/
def byteAfterRegisters (s : State) (x : RegIdx) (a : Nat) : Byte :=
  if s.i.toNat ≤ a ∧ a ≤ s.i.toNat + x.val then s.getV (Fin.ofNat 16 (a - s.i.toNat)) else s.mem.read a

/-- The byte at `a` once the three decimal digits of V[x] stand at I, I+1, I+2 (R193). -/
def byteAfterDigits (s : State) (x : RegIdx) (a : Nat) : Byte :=
  if a = s.i.toNat then BitVec.ofNat 8 ((s.getV x).toNat / 100)
  else if a = s.i.toNat + 1 then BitVec.ofNat 8 ((s.getV x).toNat / 10 % 10)
  else if a = s.i.toNat + 2 then BitVec.ofNat 8 ((s.getV x).toNat % 10)
  else s.mem.read a

/-- Which of the 34 instruction rules a handler is, whatever its operands; none for the no-op (R273). -/
def ruleOf : Handler → Option Nat
  | .instr i => some i.ctorIdx
  | .nop => none

/-- The handler takes `s` to `u`: its instruction's rule does, or it is the no-op, which writes nothing (R273). -/
def Runs (s u : State) : Handler → Prop
  | .instr i => exec i s = .next u
  | .nop => u = s

/-- A jump overwrites the advanced PC: the PC it gives is `pc`, whatever PC it was run with (R272). -/
def Overwrites (i : Instr) (s : State) (pc : Word) : Prop := ∀ a : Word, ∃ u, exec i (s.setPc a) = .next u ∧ u.pc = pc

/-- No key is pressed. -/
def noKey (inp : StepInput) : Prop := ∀ k : Fin 16, inp.keys[k] = false

/-- PC after a step from `s` that does not fault (R272): advanced by 2 for every handler, the advanced value overwritten by
a jump, 2 more exactly after a taken skip, 2 back exactly while LD Vx,K waits. `s.input` is the input of the step. -/
def pcAfterStep (s t : State) : Handler → Prop
  | .instr (.jp nnn) => Overwrites (.jp nnn) s t.pc
  | .instr (.jpV0 nnn) => Overwrites (.jpV0 nnn) s t.pc
  | .instr .ret => Overwrites .ret s t.pc
  | .instr (.call nnn) => Overwrites (.call nnn) s t.pc ∧ ∀ j : Fin 16, j.val = s.sp.toNat → t.stack[j] = s.pc + 2
  | .instr (.seVxKk x kk) => t.pc = if s.getV x = kk then s.pc + 2 + 2 else s.pc + 2
  | .instr (.sneVxKk x kk) => t.pc = if s.getV x = kk then s.pc + 2 else s.pc + 2 + 2
  | .instr (.seVxVy x y) => t.pc = if s.getV x = s.getV y then s.pc + 2 + 2 else s.pc + 2
  | .instr (.sneVxVy x y) => t.pc = if s.getV x = s.getV y then s.pc + 2 else s.pc + 2 + 2
  | .instr (.skp x) => ∃ k : Fin 16, (s.getV x).toNat = k.val ∧
      t.pc = if s.input.keys[k] = true then s.pc + 2 + 2 else s.pc + 2
  | .instr (.sknp x) => ∃ k : Fin 16, (s.getV x).toNat = k.val ∧
      t.pc = if s.input.keys[k] = true then s.pc + 2 else s.pc + 2 + 2
  | .instr (.ldVxK _) => (noKey s.input → t.pc = s.pc + 2 - 2) ∧ (¬ noKey s.input → t.pc = s.pc + 2)
  | _ => t.pc = s.pc + 2

/-- The 80 bytes of the table of R53, digit by digit (the spec's decision D2, log 2). -/
def glyphBytes : List Byte :=
  [0xF0, 0x90, 0x90, 0x90, 0xF0, 0x20, 0x60, 0x20, 0x20, 0x70, 0xF0, 0x10, 0xF0, 0x80, 0xF0, 0xF0, 0x10, 0xF0, 0x10, 0xF0] ++
  [0x90, 0x90, 0xF0, 0x10, 0x10, 0xF0, 0x80, 0xF0, 0x10, 0xF0, 0xF0, 0x80, 0xF0, 0x90, 0xF0, 0xF0, 0x10, 0x20, 0x40, 0x40] ++
  [0xF0, 0x90, 0xF0, 0x90, 0xF0, 0xF0, 0x90, 0xF0, 0x10, 0xF0, 0xF0, 0x90, 0xF0, 0x90, 0x90, 0xE0, 0x90, 0xE0, 0x90, 0xE0] ++
  [0xF0, 0x80, 0x80, 0x80, 0xF0, 0xE0, 0x90, 0x90, 0x90, 0xE0, 0xF0, 0x80, 0xF0, 0x80, 0xF0, 0xF0, 0x80, 0xF0, 0x80, 0x80]

end Sys2Proof.Statements

open Sys2Proof.Statements

/-! The decode clause that opens every statement of one instruction gives the words that reach it. The numbers in it are
the standard ones, which the spec chose itself (its decision D1, spec/92_eei_decisions.md; log 1). -/

/-! The decode clause that opens every statement of one instruction gives the words that reach it. The numbers in it are
the standard ones, which the spec chose itself (its decision D1, spec/92_eei_decisions.md; log 1). -/

/-! ### Decode and encode (spec/30_encoding.md) -/

/-- Decode of encode is the identity on every instruction, whatever its operands; as a word, as a table word and as two
bytes with any bytes after them (R83-R88, the numbers by the spec's decision D1, log 1). -/
def Obligations.DecodeOfEncodeIsIdentity : Prop :=
  ∀ i : Instr, i.wf = true → decode (encode i) = .instr i ∧ decodeTableWord 16 (encode i).toNat = some i ∧
    ∀ rest, decodeBytes (encodeBytes i ++ rest) = .ok (.instr i, rest)

/-- A few words written out from the tables of R84-R88, one of each family. -/
def Obligations.SampleWordsDecode : Prop :=
  decode 0x00E0 = .instr .cls ∧ decode 0x00EE = .instr .ret ∧ decode 0x1345 = .instr (.jp 0x345) ∧
  decode 0x3A07 = .instr (.seVxKk 10 0x07) ∧ decode 0x8126 = .instr (.shrVx 1) ∧
  decode 0x8127 = .instr (.subnVxVy 1 2) ∧ decode 0xD125 = .instr (.drw 1 2 5) ∧
  decode 0xE19E = .instr (.skp 1) ∧ decode 0xF265 = .instr (.ldVxMem 2) ∧ decode 0x8008 = .nop

/-- The fields of a word are its bit slices (R81, in the notation of R5). -/
def Obligations.FieldsAreBitSlices : Prop :=
  ∀ w : Word, opField w = (w.extractLsb' 12 4).toNat ∧ (xField w).val = (w.extractLsb' 8 4).toNat ∧
    (yField w).val = (w.extractLsb' 4 4).toNat ∧ (nField w).val = (w.extractLsb' 0 4).toNat ∧
    kkField w = w.extractLsb' 0 8 ∧ nnnField w = w.extractLsb' 0 12

/-- The words of R90: bits outside the fields an entry uses do not matter (R89). -/
def Obligations.IgnoredBitsDoNotMatter : Prop :=
  ∀ w w' : Word, bits w 15 12 = bits w' 15 12 →
    (bits w 15 12 = 0x0 → bits w 3 0 = bits w' 3 0 → decode w = decode w') ∧
    (bits w 15 12 = 0x5 ∨ bits w 15 12 = 0x9 → bits w 11 4 = bits w' 11 4 → decode w = decode w') ∧
    (bits w 15 12 = 0xE → bits w 11 8 = bits w' 11 8 → bits w 3 0 = bits w' 3 0 → decode w = decode w') ∧
    (bits w 15 12 = 0x8 → bits w 3 0 = 0x6 ∨ bits w 3 0 = 0xE → bits w 11 8 = bits w' 11 8 →
      bits w 3 0 = bits w' 3 0 → decode w = decode w')

/-- The no-op handler (R91): the unmapped words are exactly the ones R91 lists; the handler writes nothing; a step on one
advances PC by 2 and lets the timers decay, and changes nothing else of the core. -/
def Obligations.UnmappedWordsAreNoOps : Prop :=
  (∀ w, decode w = .nop ↔ Unmapped w) ∧ (∀ s, execNop s = .next s) ∧
  ∀ s w, s.fault = none → s.fetch = some w → Unmapped w →
    ∃ t, step s = .next t ∧ t.pc = s.pc + 2 ∧ t.dt.toNat = s.dt.toNat - 1 ∧ t.st.toNat = s.st.toNat - 1 ∧
      OnlyChanges (fun p => p = .pc ∨ p = .delay ∨ p = .sound ∨ p = .session) s t

/-! ### Control transfer and skips (spec/41_control_flow.md) -/

/-- RET (R121; the fault is the spec's decision D5, the refusal above SP = 16 the model's choice, log 28). -/
def Obligations.RetPopsReturnAddress : Prop :=
  (∀ w, bits w 15 12 = 0x0 → bits w 3 0 = 0xE → decode w = .instr .ret) ∧
  ∀ s : State, (s.sp.toNat = 0 → Faults .ret s .stackUnderflow 0) ∧
    (1 ≤ s.sp.toNat → s.sp.toNat ≤ 16 → ∃ t, exec .ret s = .next t ∧ t.sp.toNat = s.sp.toNat - 1 ∧
      (∀ j : Fin 16, j.val = s.sp.toNat - 1 → t.pc = s.stack[j]) ∧ OnlyChanges (fun p => p = .sp ∨ p = .pc) s t) ∧
    (16 < s.sp.toNat → exec .ret s = .refused .illegalStackPointer)

/-- JP nnn (R122; the decode clause by the spec's decision D1, log 1; the latched fault of the next fetch by its decisions
D5 and D6, logs 5 and 6): PC is the zero-extended address, odd or not; 0xFFF faults at the next fetch; a JP to its own
address leaves PC where it was. -/
def Obligations.JpSetsPc : Prop :=
  (∀ w, bits w 15 12 = 0x1 → decode w = .instr (.jp (nnnField w))) ∧
  ∀ (nnn : Addr) (s : State), ∃ t, exec (.jp nnn) s = .next t ∧ t.pc.toNat = nnn.toNat ∧
    OnlyChanges (· = .pc) s t ∧ (s.pc.toNat = nnn.toNat + 2 → t.pc = s.pc - 2) ∧
    (nnn = 0xFFF → s.fault = none → ∃ u, step t = .next u ∧ u.fault = some ⟨.fetchOutOfRange, 0xFFF, 0xFFF⟩)

/-- CALL nnn (R123; the fault is the spec's decision D5, the refusal above SP = 16 the model's choice, log 28). -/
def Obligations.CallPushesReturnAddress : Prop :=
  (∀ w, bits w 15 12 = 0x2 → decode w = .instr (.call (nnnField w))) ∧
  ∀ (nnn : Addr) (s : State), (s.sp.toNat = 16 → Faults (.call nnn) s .stackOverflow 16) ∧
    (s.sp.toNat < 16 → ∃ t, exec (.call nnn) s = .next t ∧ t.pc.toNat = nnn.toNat ∧ t.sp.toNat = s.sp.toNat + 1 ∧
      (∀ j : Fin 16, j.val = s.sp.toNat → t.stack[j] = s.pc) ∧
      OnlyChanges (fun p => p = .pc ∨ p = .sp ∨ ∃ j : Fin 16, p = .stack j ∧ j.val = s.sp.toNat) s t) ∧
    (16 < s.sp.toNat → exec (.call nnn) s = .refused .illegalStackPointer)

/-- SE Vx,kk and SNE Vx,kk (R124, R125; the decode clause by the spec's decision D1, log 1). -/
def Obligations.SkipsOnImmediate : Prop :=
  (∀ w, (bits w 15 12 = 0x3 → decode w = .instr (.seVxKk (xField w) (kkField w))) ∧
    (bits w 15 12 = 0x4 → decode w = .instr (.sneVxKk (xField w) (kkField w)))) ∧
  ∀ (x : RegIdx) (kk : Byte) (s : State), SkipsIf (.seVxKk x kk) s ((s.getV x).toNat = kk.toNat) ∧
    SkipsIf (.sneVxKk x kk) s ((s.getV x).toNat ≠ kk.toNat)

/-- SE Vx,Vy and SNE Vx,Vy (R126, R127; the decode clause by the spec's decision D1, log 1): with x = y the one always and the other never skips. -/
def Obligations.SkipsOnRegisters : Prop :=
  (∀ w, (bits w 15 12 = 0x5 → decode w = .instr (.seVxVy (xField w) (yField w))) ∧
    (bits w 15 12 = 0x9 → decode w = .instr (.sneVxVy (xField w) (yField w)))) ∧
  ∀ (x y : RegIdx) (s : State), SkipsIf (.seVxVy x y) s ((s.getV x).toNat = (s.getV y).toNat) ∧
    SkipsIf (.sneVxVy x y) s ((s.getV x).toNat ≠ (s.getV y).toNat) ∧ SkipsIf (.seVxVy x x) s True ∧
    SkipsIf (.sneVxVy x x) s False

/-- JP V0,nnn (R128; no reduction modulo 4096, the spec's decisions D6 and D18): the register is V0 whatever the top
address nibble is. -/
def Obligations.JpV0AddsV0 : Prop :=
  (∀ w, bits w 15 12 = 0xB → decode w = .instr (.jpV0 (nnnField w))) ∧
  ∀ (nnn : Addr) (s : State), ∃ t, exec (.jpV0 nnn) s = .next t ∧ t.pc.toNat = nnn.toNat + (s.getV v0).toNat ∧
    t.pc.toNat ≤ 0x10FE ∧ OnlyChanges (· = .pc) s t ∧ (t.pc.toNat > 0xFFE → t.fetch = none)

/-- CALL then RET (R123, corner cases): once a body that leaves the stack and SP as CALL left them reaches RET, PC is the
instruction after the CALL and SP its value before the CALL. -/
def Obligations.CallThenRetReturns : Prop :=
  ∀ (nnn : Addr) (s t b : State), s.sp.toNat < 16 → exec (.call nnn) s = .next t → b.sp = t.sp → b.stack = t.stack →
    ∃ u, exec .ret b = .next u ∧ u.pc = s.pc ∧ u.sp = s.sp ∧ OnlyChanges (fun p => p = .sp ∨ p = .pc) b u

/-! ### Register loads, arithmetic, logic, shifts and RND (spec/42_alu.md) -/

/-- LD Vx,kk and ADD Vx,kk (R151, R152; the decode clause by the spec's decision D1, log 1): no flag; VF changes only as the destination. -/
def Obligations.LoadAndAddImmediate : Prop :=
  (∀ w, (bits w 15 12 = 0x6 → decode w = .instr (.ldVxKk (xField w) (kkField w))) ∧
    (bits w 15 12 = 0x7 → decode w = .instr (.addVxKk (xField w) (kkField w)))) ∧
  ∀ (x : RegIdx) (kk : Byte) (s : State), WritesReg (.ldVxKk x kk) s x kk ∧
    ∃ r : Byte, r.toNat = ((s.getV x).toNat + kk.toNat) % 256 ∧ WritesReg (.addVxKk x kk) s x r

/-- LD Vx,Vy (R153; the decode clause by the spec's decision D1, log 1): with x = y nothing changes. -/
def Obligations.CopyRegister : Prop :=
  (∀ w, bits w 15 12 = 0x8 → bits w 3 0 = 0x0 → decode w = .instr (.ldVxVy (xField w) (yField w))) ∧
  ∀ (x y : RegIdx) (s : State), WritesReg (.ldVxVy x y) s x (s.getV y) ∧
    ∃ t, exec (.ldVxVy x x) s = .next t ∧ OnlyChanges (fun _ => False) s t

/-- OR, AND and XOR (R154-R156; VF unchanged is the spec's decision D11): bit by bit, and AND and XOR differ for every
pair of operands except both zero. -/
def Obligations.BitwiseLogic : Prop :=
  (∀ w, bits w 15 12 = 0x8 → (bits w 3 0 = 0x1 → decode w = .instr (.orVxVy (xField w) (yField w))) ∧
    (bits w 3 0 = 0x2 → decode w = .instr (.andVxVy (xField w) (yField w))) ∧
    (bits w 3 0 = 0x3 → decode w = .instr (.xorVxVy (xField w) (yField w)))) ∧
  ∀ (x y : RegIdx) (s : State), ∃ ro ra rx : Byte,
    (∀ k < 8, ro.getLsbD k = ((s.getV x).getLsbD k || (s.getV y).getLsbD k) ∧
      ra.getLsbD k = ((s.getV x).getLsbD k && (s.getV y).getLsbD k) ∧
      rx.getLsbD k = ((s.getV x).getLsbD k != (s.getV y).getLsbD k)) ∧
    WritesReg (.orVxVy x y) s x ro ∧ WritesReg (.andVxVy x y) s x ra ∧ WritesReg (.xorVxVy x y) s x rx ∧
    (ra = rx ↔ (s.getV x = 0 ∧ s.getV y = 0))

/-- ADD Vx,Vy (R157): the sum modulo 256 and the carry (the flag last with x = 0xF, the spec's decision D10, log 9). -/
def Obligations.AddSetsCarry : Prop :=
  (∀ w, bits w 15 12 = 0x8 → bits w 3 0 = 0x4 → decode w = .instr (.addVxVy (xField w) (yField w))) ∧
  ∀ (x y : RegIdx) (s : State), WritesResultAndFlag (.addVxVy x y) s x (((s.getV x).toNat + (s.getV y).toNat) % 256)
    (decide ((s.getV x).toNat + (s.getV y).toNat > 255))

/-- SUB and SUBN (R158, R160): the difference modulo 256 and no-borrow, equality counting as no borrow (the flag last with
x = 0xF, the spec's decision D10, log 9). -/
def Obligations.SubtractSetsNoBorrow : Prop :=
  (∀ w, bits w 15 12 = 0x8 → (bits w 3 0 = 0x5 → decode w = .instr (.subVxVy (xField w) (yField w))) ∧
    (bits w 3 0 = 0x7 → decode w = .instr (.subnVxVy (xField w) (yField w)))) ∧
  ∀ (x y : RegIdx) (s : State),
    WritesResultAndFlag (.subVxVy x y) s x (((s.getV x).toNat - (s.getV y).toNat : Int) % 256).toNat
      (decide ((s.getV x).toNat ≥ (s.getV y).toNat)) ∧
    WritesResultAndFlag (.subnVxVy x y) s x (((s.getV y).toNat - (s.getV x).toNat : Int) % 256).toNat
      (decide ((s.getV y).toNat ≥ (s.getV x).toNat))

/-- SHR and SHL (R159, R161): one place, the flag is the bit shifted out, Vy is not read (the flag last with x = 0xF, the
spec's decision D10, log 9). -/
def Obligations.ShiftsByOne : Prop :=
  (∀ w, bits w 15 12 = 0x8 → (bits w 3 0 = 0x6 → decode w = .instr (.shrVx (xField w))) ∧
    (bits w 3 0 = 0xE → decode w = .instr (.shlVx (xField w)))) ∧
  ∀ (x : RegIdx) (s : State),
    WritesResultAndFlag (.shrVx x) s x ((s.getV x).toNat / 2) (decide ((s.getV x).toNat % 2 = 1)) ∧
    WritesResultAndFlag (.shlVx x) s x ((s.getV x).toNat * 2 % 256) (decide ((s.getV x).toNat ≥ 128))

/-- RND Vx,kk (R162; the byte is free by the spec's decision D20): for every random byte the environment offers, listed in
the state or not. -/
def Obligations.RandomByteIsMasked : Prop :=
  (∀ w, bits w 15 12 = 0xC → decode w = .instr (.rnd (xField w) (kkField w))) ∧
  ∀ (x : RegIdx) (kk : Byte) (s : State), WritesReg (.rnd x kk) s x (s.input.rnd &&& kk) ∧
    (∀ inp rest, s.inputs = inp :: rest → s.input = inp) ∧ (kk = 0 → WritesReg (.rnd x kk) s x 0) ∧
    (kk = 0xFF → WritesReg (.rnd x kk) s x s.input.rnd)

/-! ### The index register and memory transfers (spec/43_index_memory.md) -/

/-- LD I,nnn and ADD I,Vx (R190, R191; the decode clauses by the spec's decision D1, log 1, the width by D18, log 16): zero-extended; modulo 65536 with no flag. -/
def Obligations.IndexLoadAndAdd : Prop :=
  (∀ w, (bits w 15 12 = 0xA → decode w = .instr (.ldI (nnnField w))) ∧
    (bits w 15 12 = 0xF → bits w 7 0 = 0x1E → decode w = .instr (.addIVx (xField w)))) ∧
  ∀ (nnn : Addr) (x : RegIdx) (s : State),
    (∃ t, exec (.ldI nnn) s = .next t ∧ t.i.toNat = nnn.toNat ∧ OnlyChanges (· = .index) s t) ∧
    (∃ t, exec (.addIVx x) s = .next t ∧ t.i.toNat = (s.i.toNat + (s.getV x).toNat) % 65536 ∧
      OnlyChanges (· = .index) s t)

/-- LD F,Vx (R192; the full byte, not masked, is the spec's decision D13, log 12). -/
def Obligations.IndexPointsAtGlyph : Prop :=
  (∀ w, bits w 15 12 = 0xF → bits w 7 0 = 0x29 → decode w = .instr (.ldFVx (xField w))) ∧
  ∀ (x : RegIdx) (s : State), ∃ t, exec (.ldFVx x) s = .next t ∧ t.i.toNat = 0x050 + 5 * (s.getV x).toNat ∧
    OnlyChanges (· = .index) s t

/-- LD B,Vx (R193; the fault is the spec's decisions D5, D6, D24): the three decimal digits at I, I+1, I+2 and no other
byte, or a fault before any write. -/
def Obligations.StoreDecimalDigits : Prop :=
  (∀ w, bits w 15 12 = 0xF → bits w 7 0 = 0x33 → decode w = .instr (.ldBVx (xField w))) ∧
  ∀ (x : RegIdx) (s : State),
    (s.i.toNat + 2 > 0xFFF → Faults (.ldBVx x) s .writeOutOfRange (max s.i.toNat 0x1000)) ∧
    (s.i.toNat + 2 ≤ 0xFFF → ∃ t, exec (.ldBVx x) s = .next t ∧
      (t.mem.read s.i.toNat).toNat = (s.getV x).toNat / 100 ∧
      (t.mem.read (s.i.toNat + 1)).toNat = (s.getV x).toNat / 10 % 10 ∧
      (t.mem.read (s.i.toNat + 2)).toNat = (s.getV x).toNat % 10 ∧
      OnlyChanges (fun p => ∃ k, k < 3 ∧ p = .byte (s.i.toNat + k)) s t)

/-- LD [I],Vx (R194; I unchanged is the spec's decision D12, the fault D5, D6, D24). -/
def Obligations.StoreRegisters : Prop :=
  (∀ w, bits w 15 12 = 0xF → bits w 7 0 = 0x55 → decode w = .instr (.ldMemVx (xField w))) ∧
  ∀ (x : RegIdx) (s : State),
    (s.i.toNat + x.val > 0xFFF → Faults (.ldMemVx x) s .writeOutOfRange (max s.i.toNat 0x1000)) ∧
    (s.i.toNat + x.val ≤ 0xFFF → ∃ t, exec (.ldMemVx x) s = .next t ∧
      (∀ r : RegIdx, r ≤ x → t.mem.read (s.i.toNat + r.val) = s.getV r) ∧
      OnlyChanges (fun p => ∃ k, k ≤ x.val ∧ p = .byte (s.i.toNat + k)) s t)

/-- LD Vx,[I] (R195; I unchanged is the spec's decision D12, the fault D5, D6, D24). -/
def Obligations.LoadRegisters : Prop :=
  (∀ w, bits w 15 12 = 0xF → bits w 7 0 = 0x65 → decode w = .instr (.ldVxMem (xField w))) ∧
  ∀ (x : RegIdx) (s : State),
    (s.i.toNat + x.val > 0xFFF → Faults (.ldVxMem x) s .readOutOfRange (max s.i.toNat 0x1000)) ∧
    (s.i.toNat + x.val ≤ 0xFFF → ∃ t, exec (.ldVxMem x) s = .next t ∧
      (∀ r : RegIdx, r ≤ x → t.getV r = s.mem.read (s.i.toNat + r.val)) ∧
      OnlyChanges (fun p => ∃ r : RegIdx, r ≤ x ∧ p = .reg r) s t)

/-- LD [I],Vx then LD Vx,[I] (R194, R195): once registers changed in between are loaded back, they hold what was stored,
where the memory and I in between are as the store left them. -/
def Obligations.StoreThenLoadRestoresRegisters : Prop :=
  ∀ (x : RegIdx) (s t b : State), s.fault = none → exec (.ldMemVx x) s = .next t → t.fault = none → b.mem = t.mem → b.i = t.i →
    ∃ u, exec (.ldVxMem x) b = .next u ∧ (∀ r : RegIdx, r ≤ x → u.getV r = s.getV r) ∧
      ∀ r : RegIdx, x < r → u.getV r = b.getV r

/-! ### The framebuffer controller (spec/44_display.md) -/

/-- CLS (R220; the decode clause by the spec's decision D1, log 1): all pixels off for any prior display, nothing else changed; every word 0x0hh0 is CLS. -/
def Obligations.ClearTurnsAllPixelsOff : Prop :=
  (∀ w, bits w 15 12 = 0x0 → bits w 3 0 = 0x0 → decode w = .instr .cls) ∧
  ∀ s : State, ∃ t, exec .cls s = .next t ∧ (∀ x y, t.display.pix x y = false) ∧
    OnlyChanges (fun p => ∃ x y, p = .pixel x y) s t

/-- DRW in closed form (R221, R222; bit order and wrap are the spec's decisions D3 and D4): every pixel a 1 bit of the
sprite reaches toggles and no other does; VF = 1 exactly if one of them was on, whatever x and y are; n = 0 changes no
pixel and sets VF = 0. -/
def Obligations.DrawTogglesCoveredPixels : Prop :=
  (∀ w, bits w 15 12 = 0xD → decode w = .instr (.drw (xField w) (yField w) (nField w))) ∧
  ∀ (x y : RegIdx) (n : Fin 16) (s : State), (n.val = 0 ∨ s.i.toNat + n.val - 1 ≤ 0xFFF) →
    ∃ t, exec (.drw x y n) s = .next t ∧
      (∀ px py, SpriteCovers s x y n px py → t.display.pix px py = !s.display.pix px py) ∧
      (∀ px py, ¬ SpriteCovers s x y n px py → t.display.pix px py = s.display.pix px py) ∧
      ((∃ px py, SpriteCovers s x y n px py ∧ s.display.pix px py = true) → t.getV vF = 1) ∧
      ((∀ px py, SpriteCovers s x y n px py → s.display.pix px py = false) → t.getV vF = 0) ∧
      OnlyChanges (fun p => p = .reg vF ∨ ∃ px py, p = .pixel px py) s t

/-- DRW out of range (R221, R301; the spec's decisions D5, D6, D24): a fault before any pixel changes. -/
def Obligations.DrawOutOfRangeFaults : Prop :=
  ∀ (x y : RegIdx) (n : Fin 16) (s : State), n.val > 0 → s.i.toNat + n.val - 1 > 0xFFF →
    Faults (.drw x y n) s .readOutOfRange (max s.i.toNat 0x1000)

/-- Drawing the same sprite twice (R221, corner cases; log 29): the display is as it was; the second draw sets VF = 1
exactly if a pixel the sprite reaches was off before the first one, so on a cleared screen the first draw gives VF = 0
and the second VF = 1 if the sprite has a 1 bit. With x or y = 0xF the first draw's flag moves the second one's
coordinates, so these are another draw. -/
def Obligations.DrawTwiceRestoresDisplay : Prop :=
  ∀ (x y : RegIdx) (n : Fin 16) (s : State), x ≠ vF → y ≠ vF → (n.val = 0 ∨ s.i.toNat + n.val - 1 ≤ 0xFFF) →
    ∃ t u, exec (.drw x y n) s = .next t ∧ exec (.drw x y n) t = .next u ∧ u.display = s.display ∧
      ((∃ px py, SpriteCovers s x y n px py ∧ s.display.pix px py = false) → u.getV vF = 1) ∧
      ((∀ px py, SpriteCovers s x y n px py → s.display.pix px py = true) → u.getV vF = 0) ∧
      ((∀ px py, s.display.pix px py = false) → t.getV vF = 0 ∧
        ((∃ r c : Nat, r < n.val ∧ c < 8 ∧ (s.mem.read (s.i.toNat + r)).getLsbD c = true) → u.getV vF = 1))

/-- The display changes only by CLS and DRW, and the core presents it as 0xFFFFFFFF for on and 0x00000000 for off
(R223). -/
def Obligations.DisplayChangesOnlyByClsAndDrw : Prop :=
  (∀ (s t : State) (x : Fin 64) (y : Fin 32), step s = .next t → t.display.pix x y ≠ s.display.pix x y →
    ∃ w, s.fetch = some w ∧ (decode w = .instr .cls ∨ ∃ a b n, decode w = .instr (.drw a b n))) ∧
  ∀ (s : State) (x : Fin 64) (y : Fin 32), (s.display.pix x y = true → s.displayOutput x y = 0xFFFFFFFF) ∧
    (s.display.pix x y = false → s.displayOutput x y = 0x00000000)

/-! ### The keypad and timer instructions (spec/45_timers_keypad.md) -/

/-- SKP and SKNP (R240, R241; the fault is the spec's decision D8): the level of key V[x] as the step sampled it. -/
def Obligations.SkipsOnKey : Prop :=
  (∀ w, bits w 15 12 = 0xE → (bits w 3 0 = 0xE → decode w = .instr (.skp (xField w))) ∧
    (bits w 3 0 = 0x1 → decode w = .instr (.sknp (xField w)))) ∧
  ∀ (x : RegIdx) (s : State),
    ((s.getV x).toNat > 0xF → Faults (.skp x) s .keyOutOfRange (s.getV x).toNat ∧
      Faults (.sknp x) s .keyOutOfRange (s.getV x).toNat) ∧
    ∀ k : Fin 16, (s.getV x).toNat = k.val →
      SkipsIf (.skp x) s (s.input.keys[k] = true) ∧ SkipsIf (.sknp x) s (s.input.keys[k] = false)

/-- LD Vx,DT, LD DT,Vx and LD ST,Vx (R242, R244, R245): DT is read before the decay of its step; a timer just set decays in
the same step (the spec marks this last point as derived from R274). -/
def Obligations.TimerTransfers : Prop :=
  (∀ w, bits w 15 12 = 0xF → (bits w 7 0 = 0x07 → decode w = .instr (.ldVxDt (xField w))) ∧
    (bits w 7 0 = 0x15 → decode w = .instr (.ldDtVx (xField w))) ∧
    (bits w 7 0 = 0x18 → decode w = .instr (.ldStVx (xField w)))) ∧
  ∀ (x : RegIdx) (s : State), WritesReg (.ldVxDt x) s x s.dt ∧
    (∃ t, exec (.ldDtVx x) s = .next t ∧ t.dt = s.getV x ∧ OnlyChanges (· = .delay) s t) ∧
    (∃ t, exec (.ldStVx x) s = .next t ∧ t.st = s.getV x ∧ OnlyChanges (· = .sound) s t) ∧
    ∀ w, s.fault = none → s.fetch = some w →
      (decode w = .instr (.ldVxDt x) → ∃ t, step s = .next t ∧ t.getV x = s.dt ∧ t.dt.toNat = s.dt.toNat - 1) ∧
      (decode w = .instr (.ldDtVx x) → ∃ t, step s = .next t ∧ t.dt.toNat = (s.getV x).toNat - 1) ∧
      (decode w = .instr (.ldStVx x) → ∃ t, step s = .next t ∧ t.st.toNat = (s.getV x).toNat - 1)

/-- LD Vx,K (R243; the least pressed key is the spec's decision D9, log 8): with a key pressed its number, without one PC
goes back to this instruction and nothing else changes. -/
def Obligations.WaitForKey : Prop :=
  (∀ w, bits w 15 12 = 0xF → bits w 7 0 = 0x0A → decode w = .instr (.ldVxK (xField w))) ∧
  ∀ (x : RegIdx) (s : State),
    (∀ k : Fin 16, s.input.keys[k] = true → (∀ j : Fin 16, j < k → s.input.keys[j] = false) →
      WritesReg (.ldVxK x) s x (BitVec.ofNat 8 k.val)) ∧
    (noKey s.input → ∃ t, exec (.ldVxK x) s = .next t ∧ t.pc = s.pc - 2 ∧ OnlyChanges (· = .pc) s t)

/-- The busy-wait (R312, R243): over k steps that sample no key, an LD Vx,K stays at its PC, DT counts down by k and no
further than 0, and no register, no byte, no pixel changes. -/
def Obligations.BusyWaitKeepsPcAndDecaysTimers : Prop :=
  ∀ (x : RegIdx) (w : Word) (k : Nat) (s : State), s.fault = none → s.fetch = some w → decode w = .instr (.ldVxK x) →
    k ≤ s.inputs.length → (∀ inp ∈ s.inputs.take k, noKey inp) →
    ∃ t, Host.Core.run core k s = .next t ∧ t.dt.toNat = s.dt.toNat - k ∧ t.st.toNat = s.st.toNat - k ∧
      OnlyChanges (fun p => p = .delay ∨ p = .sound ∨ p = .session) s t

/-! ### The cycle (spec/46_cycle_driver.md) and faults (spec/60_exceptions.md) -/

/-- A step runs the instruction its bytes decode to (R270-R274): fetch big-endian at PC, advance PC by 2, run the handler
and, unless it faulted, decay the timers. What the step does to the model's own fields is the model's choice: it uses up
the first listed input and counts the step (log 17) and sets the phase (log 20); a faulting step does none of it (the
spec's decision D5, log 5). -/
def Obligations.StepRunsTheDecodedInstruction : Prop :=
  ∀ (s : State) (i : Instr) (rest : List Byte), s.fault = none → s.pc.toNat ≤ 0xFFE → i.wf = true →
    decodeBytes (s.mem.read s.pc.toNat :: s.mem.read (s.pc.toNat + 1) :: rest) = .ok (.instr i, rest) →
    step s = finishStep (exec i (s.addPc 2)) ∧
    ∀ t, finishStep (.next t) = .next (if t.fault = none then
      { t with dt := decayed t.dt, st := decayed t.st, inputs := t.inputs.drop 1, tick := t.tick + 1, phase := .running }
      else t)

/-- A fetch above 0xFFE faults before anything is decoded (R271, R305; the spec's decision D6). -/
def Obligations.FetchOutOfRangeFaults : Prop :=
  ∀ s : State, s.fault = none → s.pc.toNat > 0xFFE →
    ∃ t, step s = .next t ∧ t.fault = some ⟨.fetchOutOfRange, s.pc, s.pc.toNat⟩ ∧ OnlyChanges (· = .latch) s t

/-- Timer decay (R274): a step that does not fault takes each timer one down and no further than 0, unless it is the
instruction that sets the timer. -/
def Obligations.TimersDecayEachStep : Prop :=
  ∀ (s t : State) (w : Word), s.fault = none → s.fetch = some w → step s = .next t → t.fault = none →
    ((∀ x, decode w ≠ .instr (.ldDtVx x)) → t.dt.toNat = s.dt.toNat - 1) ∧
    ((∀ x, decode w ≠ .instr (.ldStVx x)) → t.st.toNat = s.st.toNat - 1)

/-- When a step faults, and what the latch records (R301, R305, R302): for every state of a running core with a legal SP a
step answers a next state, whose latch is exactly what the table of R301 says, and on a fault every other piece of
state is kept (the spec's decisions D5, D6, D8, D24). -/
def Obligations.StepFaultsExactlyByTheTable : Prop :=
  ∀ s : State, s.fault = none → s.sp.toNat ≤ 16 → ∃ t, step s = .next t ∧
    t.fault = (ruleFault s).map (fun f => ⟨f.1, s.pc, f.2⟩) ∧
    (t.fault ≠ none → OnlyChanges (· = .latch) s t)

/-- A fault commits nothing (R302; the spec's decision D5): the step that latches a fault changes only the latch, and the
state it leaves explains the record. -/
def Obligations.FaultingStepCommitsNothing : Prop :=
  ∀ (s t : State) (f : FaultRecord), s.fault = none → step s = .next t → t.fault = some f →
    t = s.setFault (some f) ∧ s.Explains f

/-- A halted core stays as it is for any number of steps (R303; the spec's decision D5), and `initialize` takes it out. -/
def Obligations.HaltedCoreStaysHalted : Prop :=
  ∀ (s : State), s.Halted → (∀ k, Host.Core.run core k s = .next s) ∧ s.initialize.fault = none

/-- A jump to itself makes no progress (R277, R122): over any number of steps PC, the registers, I, the stack, memory, the
display and the latch stay, and the timers run down. -/
def Obligations.SelfJumpMakesNoProgress : Prop :=
  ∀ (nnn : Addr) (w : Word) (k : Nat) (s : State), s.fault = none → s.fetch = some w → decode w = .instr (.jp nnn) →
    s.pc.toNat = nnn.toNat →
    ∃ t, Host.Core.run core k s = .next t ∧ t.dt.toNat = s.dt.toNat - k ∧ t.st.toNat = s.st.toNat - k ∧
      OnlyChanges (fun p => p = .delay ∨ p = .sound ∨ p = .session) s t

/-! ### Whole-machine rules -/

/-- The frame of every instruction: where its execute phase latches no fault, only the pieces its rule names change
(R20-R27 and the instruction's own rule). Three points are the spec's own decisions: OR, AND and XOR leave VF (D11, log
10), the block transfers leave I (D12, log 11), RET leaves the popped entry (D23, log 21). -/
def Obligations.EveryInstructionKeepsItsFrame : Prop :=
  ∀ (i : Instr) (s t : State), exec i s = .next t → t.fault = s.fault → s.fault = none → OnlyChanges (writes s i) s t

/-- Which instructions reach memory (R59): an instruction's execute phase changes only the bytes it writes, and its
outcome depends only on the bytes it reads (memory itself apart); a fetch reads the two bytes at PC and PC + 1. -/
def Obligations.MemoryIsReachedOnlyAsListed : Prop :=
  (∀ (i : Instr) (s t : State) (a : Nat), exec i s = .next t → t.mem.read a ≠ s.mem.read a → writesByte s i a) ∧
  (∀ (i : Instr) (s : State) (m : Memory), (∀ a, readsByte s i a → m.read a = s.mem.read a) →
    AgreeBut (fun p => ∃ a, p = .byte a) (exec i s) (exec i (s.setMem m))) ∧
  ∀ (s : State) (m : Memory), m.read s.pc.toNat = s.mem.read s.pc.toNat →
    m.read (s.pc.toNat + 1) = s.mem.read (s.pc.toNat + 1) → (s.setMem m).fetch = s.fetch

/-- The inputs of a step reach only RND, SKP, SKNP and LD Vx,K (R33, R246, R275): for any other instruction the outcome is
the same whatever keys and random byte the environment offers. -/
def Obligations.InputsReachOnlyTheirReaders : Prop :=
  ∀ (i : Instr) (s : State) (l : List StepInput) (n : Nat), ¬ usesInput i →
    AgreeBut (· = .session) (exec i s) (exec i { s with inputs := l, tick := n })

/-- A read after a write (R62), for every memory; and the write keeps the canonical form. -/
def Obligations.MemoryReadAfterWrite : Prop :=
  (∀ (m : Memory) (a k : Nat) (b : Byte), (m.write a b).read k = if k = a then b else m.read k) ∧
  ∀ (m : Memory) (a : Nat) (b : Byte), m.wf → a ≤ 0xFFF → (m.write a b).wf

/-- Canonical memories that read the same are equal data (the model's representation, for R50). -/
def Obligations.CanonicalMemoriesAreEqual : Prop :=
  ∀ m m' : Memory, m.wf → m'.wf → (∀ a, m.read a = m'.read a) → m = m'

/-- A store is seen by the very next fetch (R64, R336): LD [I],Vx, for every x, and LD B,Vx, with I anywhere their rules
allow; the next step fetches the two bytes at its PC as the store left them, where that PC can be fetched from. The
store may reach the executing instruction's own bytes: the step runs the word it fetched. -/
def Obligations.StoreIsSeenByNextFetch : Prop :=
  ∀ (s : State) (w : Word) (x : RegIdx), s.fault = none → s.fetch = some w →
    (decode w = .instr (.ldMemVx x) → s.i.toNat + x.val ≤ 0xFFF → ∃ t, step s = .next t ∧ t.pc = s.pc + 2 ∧
      (t.pc.toNat ≤ 0xFFE →
        t.fetch = some (byteAfterRegisters s x t.pc.toNat ++ byteAfterRegisters s x (t.pc.toNat + 1)))) ∧
    (decode w = .instr (.ldBVx x) → s.i.toNat + 2 ≤ 0xFFF → ∃ t, step s = .next t ∧ t.pc = s.pc + 2 ∧
      (t.pc.toNat ≤ 0xFFE → t.fetch = some (byteAfterDigits s x t.pc.toNat ++ byteAfterDigits s x (t.pc.toNat + 1))))

/-- The timer hazard (R335): LD DT,Vx with n > 0 followed at once by LD Vy,DT gives Vy = n - 1. -/
def Obligations.DelayReadAfterWriteIsOneLess : Prop :=
  ∀ (s : State) (w w' : Word) (x y : RegIdx), s.fault = none → s.fetch = some w → decode w = .instr (.ldDtVx x) →
    (s.addPc 2).fetch = some w' → decode w' = .instr (.ldVxDt y) → (s.getV x).toNat > 0 →
    ∃ t, Host.Core.run core 2 s = .next t ∧ (t.getV y).toNat = (s.getV x).toNat - 1 ∧
      t.dt.toNat = (s.getV x).toNat - 2

/-! ### Reset, load and the invariant -/

/-- The reset state (R38; memory outside the font, the display and the latch are the spec's decisions D14, D15, D5; the
fields inputs, tick and phase are the model's and are not stated). -/
def Obligations.ResetState : Prop :=
  (∀ x, State.reset.getV x = 0) ∧ State.reset.i = 0 ∧ State.reset.pc = 0x200 ∧
  (∀ j : Fin 16, State.reset.stack[j] = 0) ∧ State.reset.sp = 0 ∧ State.reset.dt = 0 ∧ State.reset.st = 0 ∧
  (∀ a, a < 0x50 ∨ 0x9F < a → State.reset.mem.read a = 0) ∧
  (∀ k, k < 80 → State.reset.mem.read (0x50 + k) = glyphBytes.getD k 0) ∧ (∀ x y, State.reset.display.pix x y = false) ∧ State.reset.fault = none

/-- `initialize()` (R330): from any state, a halted one too, every piece of the core's state is at its reset value. -/
def Obligations.InitializeResets : Prop :=
  ∀ s : State, OnlyChanges (· = .session) State.reset s.initialize ∧ s.initialize.mem = State.reset.mem ∧
    s.initialize.display = State.reset.display

/-- `loadProgram(bytes)` (R331-R333; all-or-nothing is the spec's decision D22): the reset state and every state after
`initialize` admit a load; a program of at most 3584 bytes is copied to 0x200 and nothing else of the core changes; a
longer one is LoadFailure and writes nothing; after the first step the call is refused. The model's choices: that a second
load, and a load after a step that only faulted, are refused too (log 20), and that an `initialize` which follows steps
admits a load again (log 30). -/
def Obligations.LoadProgramCopiesOrFails : Prop :=
  (∀ (s : State) (bytes : List Byte), s.phase = .initialized → s.fault = none → bytes.length ≤ 3584 →
    ∃ t, s.loadProgram bytes = .loaded t ∧
      (∀ k (h : k < bytes.length), t.mem.read (0x200 + k) = bytes[k]) ∧
      OnlyChanges (fun p => p = .session ∨ ∃ k, k < bytes.length ∧ p = .byte (0x200 + k)) s t ∧
      (∀ more, t.loadProgram more = .refused .loadOutsideLifecycle)) ∧
  (∀ (s : State) (bytes : List Byte), s.phase = .initialized → s.fault = none → bytes.length > 3584 →
    s.loadProgram bytes = .loadFailure s) ∧
  (∀ (s t : State) (bytes : List Byte), step s = .next t → t.loadProgram bytes = .refused .loadOutsideLifecycle) ∧
  ∀ (s : State) (bytes : List Byte), bytes.length ≤ 3584 →
    (∃ t, s.initialize.loadProgram bytes = .loaded t) ∧ ∃ t, State.reset.loadProgram bytes = .loaded t

/-- The invariant holds after reset and after `initialize`, and a load keeps it. -/
def Obligations.ResetAndLoadMeetInvariant : Prop :=
  State.reset.Inv ∧ (∀ s : State, s.initialize.Inv) ∧
  ∀ (s t : State) (bytes : List Byte), s.Inv → s.loadProgram bytes = .loaded t → t.Inv

/-- Every step keeps the invariant, from every state that has it: memory stays canonical and inside the 4096 addresses
(R50), SP stays in 0..16 (R25), every stack entry stays a return address, PC never exceeds 0x10FE (R23), and a latched
fault is explained by the state it left (R301, R302). -/
def Obligations.EveryStepKeepsInvariant : Prop :=
  ∀ s t : State, s.Inv → step s = .next t → t.Inv

/-- A run from a state with the invariant never meets a refusal (R8, R25): every number of steps ends in a next state,
which has the invariant. -/
def Obligations.RunsNeverStopOtherwise : Prop :=
  ∀ (k : Nat) (s : State), s.Inv → ∃ t, Host.Core.run core k s = .next t ∧ t.Inv

/-! ### The cycle's order, the dispatch and the outputs -/

/-- PC is advanced by 2 before dispatch (R272), for every handler: what PC is after each kind of step that does not fault
(of one that does, StepFaultsExactlyByTheTable says that PC stays). The address CALL pushes is the advanced PC. -/
def Obligations.PcAdvancesBeforeDispatch : Prop :=
  ∀ (s t : State) (w : Word), s.fault = none → s.fetch = some w → step s = .next t → t.fault = none →
    pcAfterStep s t (decode w)

/-- Exactly one handler runs in a step, on the state after the PC advance (R273): what it gives, the no-op writing nothing,
is what the step gives, the timers apart (and the model's own fields). -/
def Obligations.OneHandlerRunsPerStep : Prop :=
  ∀ (s u : State) (w : Word), s.fault = none → s.fetch = some w → Runs (s.addPc 2) u (decode w) →
    ∃ t, step s = .next t ∧ OnlyChanges (fun p => p = .delay ∨ p = .sound ∨ p = .session) u t

/-- The dispatch (R83): the top nibble indexes the primary table, and in the families 0, 8 and E the bottom nibble, in
family F the bottom byte, the secondary one; no other bit chooses the handler. -/
def Obligations.DispatchIndexesTheTables : Prop :=
  ∀ w w' : Word, bits w 15 12 = bits w' 15 12 →
    (bits w 15 12 ∉ [0x0, 0x8, 0xE, 0xF] → ruleOf (decode w) = ruleOf (decode w')) ∧
    (bits w 15 12 ∈ [0x0, 0x8, 0xE] → bits w 3 0 = bits w' 3 0 → ruleOf (decode w) = ruleOf (decode w')) ∧
    (bits w 15 12 = 0xF → bits w 7 0 = bits w' 7 0 → ruleOf (decode w) = ruleOf (decode w'))

/-- The sound and fault outputs (R37, R301, R304; the fault output is the spec's decision D5, log 5, that of ST its D25, log
19): ST itself; nothing while no fault is latched; else the cause's code, the faulting PC and the info. -/
def Obligations.OutputsReportTimerAndFault : Prop :=
  ∀ s : State, s.soundOutput = s.st ∧ (s.fault = none → s.faultOutput = none) ∧
    ∀ f, s.fault = some f → ∃ code, s.faultOutput = some (code, f.faultPc, f.info) ∧
      (f.cause = .stackOverflow → code = 1) ∧ (f.cause = .stackUnderflow → code = 2) ∧
      (f.cause = .fetchOutOfRange → code = 3) ∧ (f.cause = .readOutOfRange → code = 4) ∧
      (f.cause = .writeOutOfRange → code = 5) ∧ (f.cause = .keyOutOfRange → code = 6)
end

