-- ==== Sys2Proof/Laws/Display.lean ====
section
/-! SUPPORT. What the display operations do to each pixel. -/

namespace Sys2Proof.Machine

@[simp] theorem pix_blank (x : Fin 64) (y : Fin 32) : Display.blank.pix x y = false := by
  simp [Display.pix, Display.blank]

theorem pix_toggle (d : Display) (x : Fin 64) (y : Fin 32) (x' : Fin 64) (y' : Fin 32) :
    (d.toggle x y).pix x' y' = if x' = x ∧ y' = y then !d.pix x' y' else d.pix x' y' := by
  simp only [Display.pix, Display.toggle, Fin.getElem_fin, Vector.getElem_set]
  by_cases hy : y' = y
  · subst hy
    by_cases hx : x' = x
    · subst hx; simp
    · simp [hx, Fin.val_ne_of_ne (Ne.symm hx)]
  · simp [hy, Fin.val_ne_of_ne (Ne.symm hy)]

/-- Two displays are equal when every pixel is. -/
theorem display_ext (d e : Display) (h : ∀ x y, d.pix x y = e.pix x y) : d = e :=
  Vector.ext fun j hj => Vector.ext fun k hk => h ⟨k, hk⟩ ⟨j, hj⟩

end Sys2Proof.Machine
end

