-- ==== Sys2Proof/Laws/Memory.lean ====
section
/-! SUPPORT. What the memory operations do: reads after writes, and that every operation keeps the canonical form. -/

namespace Sys2Proof.Machine

theorem read_erase_ne (m : Memory) (a k : Nat) (h : k ≠ a) : (m.erase a).read k = m.read k := by
  induction m with
  | nil => rfl
  | cons c m ih =>
    by_cases hc : c.1 = a
    · have hk : c.1 ≠ k := fun e => h (e ▸ hc)
      simpa [Memory.erase, Memory.read, hc, hk, Ne.symm h] using ih
    · by_cases hk : c.1 = k
      · simp [Memory.erase, Memory.read, hk, h]
      · simpa [Memory.erase, Memory.read, hc, hk] using ih

theorem read_erase_same (m : Memory) (a : Nat) : (m.erase a).read a = resetByte a := by
  induction m with
  | nil => rfl
  | cons c m ih =>
    by_cases hc : c.1 = a
    · simpa [Memory.erase, hc] using ih
    · simpa [Memory.erase, Memory.read, hc] using ih

theorem mem_erase_ne (m : Memory) (a : Nat) : ∀ c ∈ m.erase a, c.1 ≠ a := by
  simp [Memory.erase]

theorem read_insert (m : Memory) (a : Nat) (b : Byte) (k : Nat) (h : ∀ c ∈ m, c.1 ≠ a) :
    (m.insert a b).read k = if k = a then b else m.read k := by
  induction m with
  | nil => simp [Memory.insert, Memory.read, eq_comm]
  | cons c m ih =>
    have hc : c.1 ≠ a := h c (by simp)
    have ih := ih fun d hd => h d (by simp [hd])
    by_cases hlt : a < c.1
    · by_cases hk : k = a
      · simp [Memory.insert, Memory.read, hlt, hk]
      · simp [Memory.insert, Memory.read, hlt, hk, Ne.symm hk]
    · by_cases hk : c.1 = k
      · have : k ≠ a := fun e => hc (hk.trans e)
        rw [Memory.insert, if_neg hlt]
        simp [Memory.read, hk, this]
      · simp [Memory.insert, Memory.read, hlt, hk, ih]

/-- A read after a write: the written byte at its address, every other address as before (R62). No premise on the list. -/
theorem read_write (m : Memory) (a : Nat) (b : Byte) (k : Nat) :
    (m.write a b).read k = if k = a then b else m.read k := by
  unfold Memory.write
  split
  · next hb =>
    by_cases hk : k = a
    · subst hk; simp [read_erase_same, hb]
    · simp [hk, read_erase_ne _ _ _ hk]
  · rw [read_insert _ _ _ _ (mem_erase_ne m a)]
    by_cases hk : k = a
    · simp [hk]
    · simp [hk, read_erase_ne _ _ _ hk]

/-- A read after a block write: inside the block the block's byte, outside it as before. -/
theorem read_writeBytes (bs : List Byte) (m : Memory) (base k : Nat) :
    (m.writeBytes base bs).read k =
      if base ≤ k ∧ k < base + bs.length then bs.getD (k - base) 0 else m.read k := by
  induction bs generalizing m base with
  | nil =>
    have h : ¬ (base ≤ k ∧ k < base + ([] : List Byte).length) := by simp
    rw [if_neg h, Memory.writeBytes]
  | cons b bs ih =>
    rw [Memory.writeBytes, ih, read_write]
    simp only [List.length_cons]
    by_cases h1 : base + 1 ≤ k ∧ k < base + 1 + bs.length
    · have h2 : base ≤ k ∧ k < base + (bs.length + 1) := by omega
      have h3 : k - base = (k - (base + 1)) + 1 := by omega
      rw [if_pos h1, if_pos h2, h3, List.getD_cons_succ]
    · by_cases hk : k = base
      · subst hk; simp
      · have h2 : ¬ (base ≤ k ∧ k < base + (bs.length + 1)) := by omega
        rw [if_neg h1, if_neg h2, if_neg hk]

theorem read_writeBytes_outside (bs : List Byte) (m : Memory) (base k : Nat)
    (h : ¬ (base ≤ k ∧ k < base + bs.length)) : (m.writeBytes base bs).read k = m.read k := by
  rw [read_writeBytes, if_neg h]

theorem wf_nil : Memory.wf [] := ⟨List.Pairwise.nil, by simp⟩

theorem wf_erase (m : Memory) (a : Nat) (h : m.wf) : (m.erase a).wf :=
  ⟨h.1.filter _, fun c hc => h.2 c (List.mem_of_mem_filter hc)⟩

theorem mem_insert (m : Memory) (a : Nat) (b : Byte) (c : Host.Cell) (h : c ∈ m.insert a b) : c = (a, b) ∨ c ∈ m := by
  induction m with
  | nil => simpa [Memory.insert] using h
  | cons d m ih =>
    by_cases hlt : a < d.1
    · simpa [Memory.insert, hlt] using h
    · simp only [Memory.insert, hlt, if_false, List.mem_cons] at h
      rcases h with h | h
      · exact Or.inr (by simp [h])
      · rcases ih h with h | h
        · exact Or.inl h
        · exact Or.inr (by simp [h])

theorem wf_insert (m : Memory) (a : Nat) (b : Byte) (h : m.wf) (hne : ∀ c ∈ m, c.1 ≠ a)
    (ha : a < 0x1000) (hb : b ≠ resetByte a) : (m.insert a b).wf := by
  refine ⟨?_, fun c hc => ?_⟩
  · induction m with
    | nil => simp [Memory.insert]
    | cons d m ih =>
      have hd : d.1 ≠ a := hne d (by simp)
      have hp := List.pairwise_cons.1 h.1
      by_cases hlt : a < d.1
      · simp only [Memory.insert, hlt, if_true]
        refine List.pairwise_cons.2 ⟨fun c hc => ?_, h.1⟩
        rcases List.mem_cons.1 hc with rfl | hc
        · exact hlt
        · exact hlt.trans (hp.1 c hc)
      · simp only [Memory.insert, hlt, if_false]
        refine List.pairwise_cons.2 ⟨fun c hc => ?_, ?_⟩
        · rcases mem_insert m a b c hc with rfl | hc
          · simp only; omega
          · exact hp.1 c hc
        · exact ih ⟨hp.2, fun c hc => h.2 c (by simp [hc])⟩ fun c hc => hne c (by simp [hc])
  · rcases mem_insert m a b c hc with rfl | hc
    · exact ⟨ha, hb⟩
    · exact h.2 c hc

/-- A write inside the address space keeps the canonical form. -/
theorem wf_write (m : Memory) (a : Nat) (b : Byte) (h : m.wf) (ha : a < 0x1000) : (m.write a b).wf := by
  unfold Memory.write
  split
  · exact wf_erase m a h
  · next hb => exact wf_insert _ a b (wf_erase m a h) (mem_erase_ne m a) ha hb

/-- A block write inside the address space keeps the canonical form. -/
theorem wf_writeBytes (bs : List Byte) (m : Memory) (base : Nat) (h : m.wf) (hr : InRange base bs.length) :
    (m.writeBytes base bs).wf := by
  induction bs generalizing m base with
  | nil => exact h
  | cons b bs ih =>
    have hr : base + (bs.length + 1) ≤ 0x1000 := by simpa [InRange] using hr
    exact ih _ _ (wf_write m base b h (by omega)) (Or.inr (by omega))

theorem read_of_lt_all (m : Memory) (a : Nat) (h : ∀ c ∈ m, a < c.1) : m.read a = resetByte a := by
  induction m with
  | nil => rfl
  | cons c m ih =>
    have hc : c.1 ≠ a := by have := h c (by simp); omega
    simpa [Memory.read, hc] using ih fun d hd => h d (by simp [hd])

theorem not_inRange (base count : Nat) (h : ¬ InRange base count) : 0 < count ∧ base + count > 0x1000 := by
  simp only [InRange, not_or] at h; omega

end Sys2Proof.Machine
end

