-- ==== Sys2Proof/Laws/Operands.lean ====
section
/-! SUPPORT. The values of the operand forms and the flags as natural numbers. -/

namespace Sys2Proof.Machine

/-- `zext_16(nnn)` keeps the value (R82). -/
@[simp] theorem addrOperand_toNat (nnn : Addr) : (addrOperand nnn).toNat = nnn.toNat := by
  have := nnn.isLt
  simp only [addrOperand, BitVec.toNat_setWidth]; omega

@[simp] theorem addByte_toNat (a : Word) (b : Byte) : (addByte a b).toNat = (a.toNat + b.toNat) % 65536 := by
  have := b.isLt
  simp [addByte, BitVec.toNat_add]

/-- The glyph address never wraps (R192). -/
@[simp] theorem glyphAddress_toNat (b : Byte) : (glyphAddress b).toNat = 0x50 + 5 * b.toNat := by
  have := b.isLt
  simp only [glyphAddress, BitVec.toNat_ofNat, Config.fontBase]; omega

@[simp] theorem flagByte_toNat (f : Bool) : (flagByte f).toNat = if f then 1 else 0 := by cases f <;> rfl

theorem shiftedOutRight_iff (a : Byte) : shiftedOutRight a = decide (a.toNat % 2 = 1) := by
  simp [shiftedOutRight, BitVec.getLsbD, Nat.testBit_zero]

theorem shiftedOutLeft_iff (a : Byte) : shiftedOutLeft a = decide (a.toNat ≥ 128) := by
  have := a.isLt
  rw [Bool.eq_iff_iff]
  simp only [shiftedOutLeft, BitVec.getLsbD, Nat.testBit_eq_decide_div_mod_eq, decide_eq_true_eq]; omega

theorem decimalDigits_length (b : Byte) : (decimalDigits b).length = 3 := rfl

theorem decimalDigits_values (b : Byte) (k : Nat) (hk : k < 3) :
    ((decimalDigits b).getD k 0).toNat = b.toNat / 10 ^ (2 - k) % 10 := by
  have := b.isLt
  have : k = 0 ∨ k = 1 ∨ k = 2 := by omega
  rcases this with rfl | rfl | rfl <;> simp [decimalDigits] <;> omega

theorem regsUpTo_length (s : State) (x : RegIdx) : (s.regsUpTo x).length = x.val + 1 := by
  simp [State.regsUpTo]

theorem regsUpTo_getD (s : State) (x r : RegIdx) (h : r ≤ x) : (s.regsUpTo x).getD r.val 0 = s.getV r := by
  have hr : r.val < x.val + 1 := Nat.lt_succ_of_le h
  have hl : r.val < (s.regsUpTo x).length := by rw [regsUpTo_length]; exact hr
  rw [List.getD_eq_getElem _ _ hl]
  simp [State.regsUpTo, State.getV]

theorem regsLoaded_get (s : State) (x r : RegIdx) (base : Nat) :
    (s.regsLoaded x base)[r] = if r ≤ x then s.mem.read (base + r.val) else s.getV r := by
  simp [State.regsLoaded]

/-- The least pressed key: pressed, and no lower key is (R243). -/
theorem leastPressed_some (keys : Vector Bool 16) (k : Fin 16) (hk : keys[k] = true)
    (hl : ∀ j : Fin 16, j < k → keys[j] = false) : leastPressed keys = some k := by
  unfold leastPressed
  rw [List.find?_eq_some_iff_getElem]
  refine ⟨hk, k.val, by simp, by simp, fun j hj => ?_⟩
  simpa using hl ⟨j, by omega⟩ hj

theorem leastPressed_none (keys : Vector Bool 16) (h : ∀ k : Fin 16, keys[k] = false) :
    leastPressed keys = none := by
  unfold leastPressed
  rw [List.find?_eq_none]
  intro k _
  simpa using h k

end Sys2Proof.Machine
end

