-- ==== Sys2Proof/Laws/State.lean ====
section
/-! SUPPORT. One lemma per field per update of State, and the reads of V after each update. -/

namespace Sys2Proof.Machine

variable (s : State)

@[simp] theorem setV_i (x : RegIdx) (b : Byte) : (s.setV x b).i = s.i := rfl
@[simp] theorem setV_pc (x : RegIdx) (b : Byte) : (s.setV x b).pc = s.pc := rfl
@[simp] theorem setV_stack (x : RegIdx) (b : Byte) : (s.setV x b).stack = s.stack := rfl
@[simp] theorem setV_sp (x : RegIdx) (b : Byte) : (s.setV x b).sp = s.sp := rfl
@[simp] theorem setV_dt (x : RegIdx) (b : Byte) : (s.setV x b).dt = s.dt := rfl
@[simp] theorem setV_st (x : RegIdx) (b : Byte) : (s.setV x b).st = s.st := rfl
@[simp] theorem setV_mem (x : RegIdx) (b : Byte) : (s.setV x b).mem = s.mem := rfl
@[simp] theorem setV_display (x : RegIdx) (b : Byte) : (s.setV x b).display = s.display := rfl
@[simp] theorem setV_fault (x : RegIdx) (b : Byte) : (s.setV x b).fault = s.fault := rfl
@[simp] theorem setV_inputs (x : RegIdx) (b : Byte) : (s.setV x b).inputs = s.inputs := rfl
@[simp] theorem setV_tick (x : RegIdx) (b : Byte) : (s.setV x b).tick = s.tick := rfl
@[simp] theorem setV_phase (x : RegIdx) (b : Byte) : (s.setV x b).phase = s.phase := rfl
@[simp] theorem setV_input (x : RegIdx) (b : Byte) : (s.setV x b).input = s.input := rfl

@[simp] theorem setVs_v (vs : Vector Byte 16) : (s.setVs vs).v = vs := rfl
@[simp] theorem setVs_i (vs : Vector Byte 16) : (s.setVs vs).i = s.i := rfl
@[simp] theorem setVs_pc (vs : Vector Byte 16) : (s.setVs vs).pc = s.pc := rfl
@[simp] theorem setVs_stack (vs : Vector Byte 16) : (s.setVs vs).stack = s.stack := rfl
@[simp] theorem setVs_sp (vs : Vector Byte 16) : (s.setVs vs).sp = s.sp := rfl
@[simp] theorem setVs_dt (vs : Vector Byte 16) : (s.setVs vs).dt = s.dt := rfl
@[simp] theorem setVs_st (vs : Vector Byte 16) : (s.setVs vs).st = s.st := rfl
@[simp] theorem setVs_mem (vs : Vector Byte 16) : (s.setVs vs).mem = s.mem := rfl
@[simp] theorem setVs_display (vs : Vector Byte 16) : (s.setVs vs).display = s.display := rfl
@[simp] theorem setVs_fault (vs : Vector Byte 16) : (s.setVs vs).fault = s.fault := rfl
@[simp] theorem setVs_inputs (vs : Vector Byte 16) : (s.setVs vs).inputs = s.inputs := rfl
@[simp] theorem setVs_tick (vs : Vector Byte 16) : (s.setVs vs).tick = s.tick := rfl
@[simp] theorem setVs_phase (vs : Vector Byte 16) : (s.setVs vs).phase = s.phase := rfl
@[simp] theorem setVs_input (vs : Vector Byte 16) : (s.setVs vs).input = s.input := rfl

@[simp] theorem setI_v (a : Word) : (s.setI a).v = s.v := rfl
@[simp] theorem setI_i (a : Word) : (s.setI a).i = a := rfl
@[simp] theorem setI_pc (a : Word) : (s.setI a).pc = s.pc := rfl
@[simp] theorem setI_stack (a : Word) : (s.setI a).stack = s.stack := rfl
@[simp] theorem setI_sp (a : Word) : (s.setI a).sp = s.sp := rfl
@[simp] theorem setI_dt (a : Word) : (s.setI a).dt = s.dt := rfl
@[simp] theorem setI_st (a : Word) : (s.setI a).st = s.st := rfl
@[simp] theorem setI_mem (a : Word) : (s.setI a).mem = s.mem := rfl
@[simp] theorem setI_display (a : Word) : (s.setI a).display = s.display := rfl
@[simp] theorem setI_fault (a : Word) : (s.setI a).fault = s.fault := rfl
@[simp] theorem setI_inputs (a : Word) : (s.setI a).inputs = s.inputs := rfl
@[simp] theorem setI_tick (a : Word) : (s.setI a).tick = s.tick := rfl
@[simp] theorem setI_phase (a : Word) : (s.setI a).phase = s.phase := rfl
@[simp] theorem getV_setI (a : Word) (r : RegIdx) : (s.setI a).getV r = s.getV r := rfl
@[simp] theorem setI_input (a : Word) : (s.setI a).input = s.input := rfl

@[simp] theorem setPc_v (a : Word) : (s.setPc a).v = s.v := rfl
@[simp] theorem setPc_i (a : Word) : (s.setPc a).i = s.i := rfl
@[simp] theorem setPc_pc (a : Word) : (s.setPc a).pc = a := rfl
@[simp] theorem setPc_stack (a : Word) : (s.setPc a).stack = s.stack := rfl
@[simp] theorem setPc_sp (a : Word) : (s.setPc a).sp = s.sp := rfl
@[simp] theorem setPc_dt (a : Word) : (s.setPc a).dt = s.dt := rfl
@[simp] theorem setPc_st (a : Word) : (s.setPc a).st = s.st := rfl
@[simp] theorem setPc_mem (a : Word) : (s.setPc a).mem = s.mem := rfl
@[simp] theorem setPc_display (a : Word) : (s.setPc a).display = s.display := rfl
@[simp] theorem setPc_fault (a : Word) : (s.setPc a).fault = s.fault := rfl
@[simp] theorem setPc_inputs (a : Word) : (s.setPc a).inputs = s.inputs := rfl
@[simp] theorem setPc_tick (a : Word) : (s.setPc a).tick = s.tick := rfl
@[simp] theorem setPc_phase (a : Word) : (s.setPc a).phase = s.phase := rfl
@[simp] theorem getV_setPc (a : Word) (r : RegIdx) : (s.setPc a).getV r = s.getV r := rfl
@[simp] theorem setPc_input (a : Word) : (s.setPc a).input = s.input := rfl

@[simp] theorem setSp_v (n : BitVec 8) : (s.setSp n).v = s.v := rfl
@[simp] theorem setSp_i (n : BitVec 8) : (s.setSp n).i = s.i := rfl
@[simp] theorem setSp_pc (n : BitVec 8) : (s.setSp n).pc = s.pc := rfl
@[simp] theorem setSp_stack (n : BitVec 8) : (s.setSp n).stack = s.stack := rfl
@[simp] theorem setSp_sp (n : BitVec 8) : (s.setSp n).sp = n := rfl
@[simp] theorem setSp_dt (n : BitVec 8) : (s.setSp n).dt = s.dt := rfl
@[simp] theorem setSp_st (n : BitVec 8) : (s.setSp n).st = s.st := rfl
@[simp] theorem setSp_mem (n : BitVec 8) : (s.setSp n).mem = s.mem := rfl
@[simp] theorem setSp_display (n : BitVec 8) : (s.setSp n).display = s.display := rfl
@[simp] theorem setSp_fault (n : BitVec 8) : (s.setSp n).fault = s.fault := rfl
@[simp] theorem setSp_inputs (n : BitVec 8) : (s.setSp n).inputs = s.inputs := rfl
@[simp] theorem setSp_tick (n : BitVec 8) : (s.setSp n).tick = s.tick := rfl
@[simp] theorem setSp_phase (n : BitVec 8) : (s.setSp n).phase = s.phase := rfl
@[simp] theorem getV_setSp (n : BitVec 8) (r : RegIdx) : (s.setSp n).getV r = s.getV r := rfl
@[simp] theorem setSp_input (n : BitVec 8) : (s.setSp n).input = s.input := rfl

@[simp] theorem setStack_v (k : Vector Word 16) : (s.setStack k).v = s.v := rfl
@[simp] theorem setStack_i (k : Vector Word 16) : (s.setStack k).i = s.i := rfl
@[simp] theorem setStack_pc (k : Vector Word 16) : (s.setStack k).pc = s.pc := rfl
@[simp] theorem setStack_stack (k : Vector Word 16) : (s.setStack k).stack = k := rfl
@[simp] theorem setStack_sp (k : Vector Word 16) : (s.setStack k).sp = s.sp := rfl
@[simp] theorem setStack_dt (k : Vector Word 16) : (s.setStack k).dt = s.dt := rfl
@[simp] theorem setStack_st (k : Vector Word 16) : (s.setStack k).st = s.st := rfl
@[simp] theorem setStack_mem (k : Vector Word 16) : (s.setStack k).mem = s.mem := rfl
@[simp] theorem setStack_display (k : Vector Word 16) : (s.setStack k).display = s.display := rfl
@[simp] theorem setStack_fault (k : Vector Word 16) : (s.setStack k).fault = s.fault := rfl
@[simp] theorem setStack_inputs (k : Vector Word 16) : (s.setStack k).inputs = s.inputs := rfl
@[simp] theorem setStack_tick (k : Vector Word 16) : (s.setStack k).tick = s.tick := rfl
@[simp] theorem setStack_phase (k : Vector Word 16) : (s.setStack k).phase = s.phase := rfl
@[simp] theorem getV_setStack (k : Vector Word 16) (r : RegIdx) : (s.setStack k).getV r = s.getV r := rfl
@[simp] theorem setStack_input (k : Vector Word 16) : (s.setStack k).input = s.input := rfl

@[simp] theorem setDt_v (b : Byte) : (s.setDt b).v = s.v := rfl
@[simp] theorem setDt_i (b : Byte) : (s.setDt b).i = s.i := rfl
@[simp] theorem setDt_pc (b : Byte) : (s.setDt b).pc = s.pc := rfl
@[simp] theorem setDt_stack (b : Byte) : (s.setDt b).stack = s.stack := rfl
@[simp] theorem setDt_sp (b : Byte) : (s.setDt b).sp = s.sp := rfl
@[simp] theorem setDt_dt (b : Byte) : (s.setDt b).dt = b := rfl
@[simp] theorem setDt_st (b : Byte) : (s.setDt b).st = s.st := rfl
@[simp] theorem setDt_mem (b : Byte) : (s.setDt b).mem = s.mem := rfl
@[simp] theorem setDt_display (b : Byte) : (s.setDt b).display = s.display := rfl
@[simp] theorem setDt_fault (b : Byte) : (s.setDt b).fault = s.fault := rfl
@[simp] theorem setDt_inputs (b : Byte) : (s.setDt b).inputs = s.inputs := rfl
@[simp] theorem setDt_tick (b : Byte) : (s.setDt b).tick = s.tick := rfl
@[simp] theorem setDt_phase (b : Byte) : (s.setDt b).phase = s.phase := rfl
@[simp] theorem getV_setDt (b : Byte) (r : RegIdx) : (s.setDt b).getV r = s.getV r := rfl
@[simp] theorem setDt_input (b : Byte) : (s.setDt b).input = s.input := rfl

@[simp] theorem setSt_v (b : Byte) : (s.setSt b).v = s.v := rfl
@[simp] theorem setSt_i (b : Byte) : (s.setSt b).i = s.i := rfl
@[simp] theorem setSt_pc (b : Byte) : (s.setSt b).pc = s.pc := rfl
@[simp] theorem setSt_stack (b : Byte) : (s.setSt b).stack = s.stack := rfl
@[simp] theorem setSt_sp (b : Byte) : (s.setSt b).sp = s.sp := rfl
@[simp] theorem setSt_dt (b : Byte) : (s.setSt b).dt = s.dt := rfl
@[simp] theorem setSt_st (b : Byte) : (s.setSt b).st = b := rfl
@[simp] theorem setSt_mem (b : Byte) : (s.setSt b).mem = s.mem := rfl
@[simp] theorem setSt_display (b : Byte) : (s.setSt b).display = s.display := rfl
@[simp] theorem setSt_fault (b : Byte) : (s.setSt b).fault = s.fault := rfl
@[simp] theorem setSt_inputs (b : Byte) : (s.setSt b).inputs = s.inputs := rfl
@[simp] theorem setSt_tick (b : Byte) : (s.setSt b).tick = s.tick := rfl
@[simp] theorem setSt_phase (b : Byte) : (s.setSt b).phase = s.phase := rfl
@[simp] theorem getV_setSt (b : Byte) (r : RegIdx) : (s.setSt b).getV r = s.getV r := rfl
@[simp] theorem setSt_input (b : Byte) : (s.setSt b).input = s.input := rfl

@[simp] theorem setMem_v (m : Memory) : (s.setMem m).v = s.v := rfl
@[simp] theorem setMem_i (m : Memory) : (s.setMem m).i = s.i := rfl
@[simp] theorem setMem_pc (m : Memory) : (s.setMem m).pc = s.pc := rfl
@[simp] theorem setMem_stack (m : Memory) : (s.setMem m).stack = s.stack := rfl
@[simp] theorem setMem_sp (m : Memory) : (s.setMem m).sp = s.sp := rfl
@[simp] theorem setMem_dt (m : Memory) : (s.setMem m).dt = s.dt := rfl
@[simp] theorem setMem_st (m : Memory) : (s.setMem m).st = s.st := rfl
@[simp] theorem setMem_mem (m : Memory) : (s.setMem m).mem = m := rfl
@[simp] theorem setMem_display (m : Memory) : (s.setMem m).display = s.display := rfl
@[simp] theorem setMem_fault (m : Memory) : (s.setMem m).fault = s.fault := rfl
@[simp] theorem setMem_inputs (m : Memory) : (s.setMem m).inputs = s.inputs := rfl
@[simp] theorem setMem_tick (m : Memory) : (s.setMem m).tick = s.tick := rfl
@[simp] theorem setMem_phase (m : Memory) : (s.setMem m).phase = s.phase := rfl
@[simp] theorem getV_setMem (m : Memory) (r : RegIdx) : (s.setMem m).getV r = s.getV r := rfl
@[simp] theorem setMem_input (m : Memory) : (s.setMem m).input = s.input := rfl

@[simp] theorem setDisplay_v (d : Display) : (s.setDisplay d).v = s.v := rfl
@[simp] theorem setDisplay_i (d : Display) : (s.setDisplay d).i = s.i := rfl
@[simp] theorem setDisplay_pc (d : Display) : (s.setDisplay d).pc = s.pc := rfl
@[simp] theorem setDisplay_stack (d : Display) : (s.setDisplay d).stack = s.stack := rfl
@[simp] theorem setDisplay_sp (d : Display) : (s.setDisplay d).sp = s.sp := rfl
@[simp] theorem setDisplay_dt (d : Display) : (s.setDisplay d).dt = s.dt := rfl
@[simp] theorem setDisplay_st (d : Display) : (s.setDisplay d).st = s.st := rfl
@[simp] theorem setDisplay_mem (d : Display) : (s.setDisplay d).mem = s.mem := rfl
@[simp] theorem setDisplay_display (d : Display) : (s.setDisplay d).display = d := rfl
@[simp] theorem setDisplay_fault (d : Display) : (s.setDisplay d).fault = s.fault := rfl
@[simp] theorem setDisplay_inputs (d : Display) : (s.setDisplay d).inputs = s.inputs := rfl
@[simp] theorem setDisplay_tick (d : Display) : (s.setDisplay d).tick = s.tick := rfl
@[simp] theorem setDisplay_phase (d : Display) : (s.setDisplay d).phase = s.phase := rfl
@[simp] theorem getV_setDisplay (d : Display) (r : RegIdx) : (s.setDisplay d).getV r = s.getV r := rfl
@[simp] theorem setDisplay_input (d : Display) : (s.setDisplay d).input = s.input := rfl

@[simp] theorem setFault_v (f : Option FaultRecord) : (s.setFault f).v = s.v := rfl
@[simp] theorem setFault_i (f : Option FaultRecord) : (s.setFault f).i = s.i := rfl
@[simp] theorem setFault_pc (f : Option FaultRecord) : (s.setFault f).pc = s.pc := rfl
@[simp] theorem setFault_stack (f : Option FaultRecord) : (s.setFault f).stack = s.stack := rfl
@[simp] theorem setFault_sp (f : Option FaultRecord) : (s.setFault f).sp = s.sp := rfl
@[simp] theorem setFault_dt (f : Option FaultRecord) : (s.setFault f).dt = s.dt := rfl
@[simp] theorem setFault_st (f : Option FaultRecord) : (s.setFault f).st = s.st := rfl
@[simp] theorem setFault_mem (f : Option FaultRecord) : (s.setFault f).mem = s.mem := rfl
@[simp] theorem setFault_display (f : Option FaultRecord) : (s.setFault f).display = s.display := rfl
@[simp] theorem setFault_fault (f : Option FaultRecord) : (s.setFault f).fault = f := rfl
@[simp] theorem setFault_inputs (f : Option FaultRecord) : (s.setFault f).inputs = s.inputs := rfl
@[simp] theorem setFault_tick (f : Option FaultRecord) : (s.setFault f).tick = s.tick := rfl
@[simp] theorem setFault_phase (f : Option FaultRecord) : (s.setFault f).phase = s.phase := rfl
@[simp] theorem getV_setFault (f : Option FaultRecord) (r : RegIdx) : (s.setFault f).getV r = s.getV r := rfl

@[simp] theorem addPc_v (d : Word) : (s.addPc d).v = s.v := rfl
@[simp] theorem addPc_i (d : Word) : (s.addPc d).i = s.i := rfl
@[simp] theorem addPc_pc (d : Word) : (s.addPc d).pc = s.pc + d := rfl
@[simp] theorem addPc_stack (d : Word) : (s.addPc d).stack = s.stack := rfl
@[simp] theorem addPc_sp (d : Word) : (s.addPc d).sp = s.sp := rfl
@[simp] theorem addPc_dt (d : Word) : (s.addPc d).dt = s.dt := rfl
@[simp] theorem addPc_st (d : Word) : (s.addPc d).st = s.st := rfl
@[simp] theorem addPc_mem (d : Word) : (s.addPc d).mem = s.mem := rfl
@[simp] theorem addPc_display (d : Word) : (s.addPc d).display = s.display := rfl
@[simp] theorem addPc_fault (d : Word) : (s.addPc d).fault = s.fault := rfl
@[simp] theorem addPc_inputs (d : Word) : (s.addPc d).inputs = s.inputs := rfl
@[simp] theorem addPc_tick (d : Word) : (s.addPc d).tick = s.tick := rfl
@[simp] theorem addPc_phase (d : Word) : (s.addPc d).phase = s.phase := rfl
@[simp] theorem getV_addPc (d : Word) (r : RegIdx) : (s.addPc d).getV r = s.getV r := rfl
@[simp] theorem addPc_input (d : Word) : (s.addPc d).input = s.input := rfl

@[simp] theorem setVF_i (f : Bool) : (s.setVF f).i = s.i := rfl
@[simp] theorem setVF_pc (f : Bool) : (s.setVF f).pc = s.pc := rfl
@[simp] theorem setVF_stack (f : Bool) : (s.setVF f).stack = s.stack := rfl
@[simp] theorem setVF_sp (f : Bool) : (s.setVF f).sp = s.sp := rfl
@[simp] theorem setVF_dt (f : Bool) : (s.setVF f).dt = s.dt := rfl
@[simp] theorem setVF_st (f : Bool) : (s.setVF f).st = s.st := rfl
@[simp] theorem setVF_mem (f : Bool) : (s.setVF f).mem = s.mem := rfl
@[simp] theorem setVF_display (f : Bool) : (s.setVF f).display = s.display := rfl
@[simp] theorem setVF_fault (f : Bool) : (s.setVF f).fault = s.fault := rfl
@[simp] theorem setVF_inputs (f : Bool) : (s.setVF f).inputs = s.inputs := rfl
@[simp] theorem setVF_tick (f : Bool) : (s.setVF f).tick = s.tick := rfl
@[simp] theorem setVF_phase (f : Bool) : (s.setVF f).phase = s.phase := rfl
@[simp] theorem setVF_input (f : Bool) : (s.setVF f).input = s.input := rfl

@[simp] theorem setResultAndFlag_i (x : RegIdx) (b : Byte) (f : Bool) : (s.setResultAndFlag x b f).i = s.i := rfl
@[simp] theorem setResultAndFlag_pc (x : RegIdx) (b : Byte) (f : Bool) : (s.setResultAndFlag x b f).pc = s.pc := rfl
@[simp] theorem setResultAndFlag_stack (x : RegIdx) (b : Byte) (f : Bool) : (s.setResultAndFlag x b f).stack = s.stack := rfl
@[simp] theorem setResultAndFlag_sp (x : RegIdx) (b : Byte) (f : Bool) : (s.setResultAndFlag x b f).sp = s.sp := rfl
@[simp] theorem setResultAndFlag_dt (x : RegIdx) (b : Byte) (f : Bool) : (s.setResultAndFlag x b f).dt = s.dt := rfl
@[simp] theorem setResultAndFlag_st (x : RegIdx) (b : Byte) (f : Bool) : (s.setResultAndFlag x b f).st = s.st := rfl
@[simp] theorem setResultAndFlag_mem (x : RegIdx) (b : Byte) (f : Bool) : (s.setResultAndFlag x b f).mem = s.mem := rfl
@[simp] theorem setResultAndFlag_display (x : RegIdx) (b : Byte) (f : Bool) : (s.setResultAndFlag x b f).display = s.display := rfl
@[simp] theorem setResultAndFlag_fault (x : RegIdx) (b : Byte) (f : Bool) : (s.setResultAndFlag x b f).fault = s.fault := rfl
@[simp] theorem setResultAndFlag_inputs (x : RegIdx) (b : Byte) (f : Bool) : (s.setResultAndFlag x b f).inputs = s.inputs := rfl
@[simp] theorem setResultAndFlag_tick (x : RegIdx) (b : Byte) (f : Bool) : (s.setResultAndFlag x b f).tick = s.tick := rfl
@[simp] theorem setResultAndFlag_phase (x : RegIdx) (b : Byte) (f : Bool) : (s.setResultAndFlag x b f).phase = s.phase := rfl
@[simp] theorem setResultAndFlag_input (x : RegIdx) (b : Byte) (f : Bool) : (s.setResultAndFlag x b f).input = s.input := rfl

@[simp] theorem advance_v : s.advance.v = s.v := rfl
@[simp] theorem advance_i : s.advance.i = s.i := rfl
@[simp] theorem advance_pc : s.advance.pc = s.pc + 2 := rfl
@[simp] theorem advance_stack : s.advance.stack = s.stack := rfl
@[simp] theorem advance_sp : s.advance.sp = s.sp := rfl
@[simp] theorem advance_dt : s.advance.dt = s.dt := rfl
@[simp] theorem advance_st : s.advance.st = s.st := rfl
@[simp] theorem advance_mem : s.advance.mem = s.mem := rfl
@[simp] theorem advance_display : s.advance.display = s.display := rfl
@[simp] theorem advance_fault : s.advance.fault = s.fault := rfl
@[simp] theorem advance_inputs : s.advance.inputs = s.inputs := rfl
@[simp] theorem advance_tick : s.advance.tick = s.tick := rfl
@[simp] theorem advance_phase : s.advance.phase = s.phase := rfl
@[simp] theorem backPc_v : s.backPc.v = s.v := rfl
@[simp] theorem backPc_i : s.backPc.i = s.i := rfl
@[simp] theorem backPc_pc : s.backPc.pc = s.pc - 2 := rfl
@[simp] theorem backPc_stack : s.backPc.stack = s.stack := rfl
@[simp] theorem backPc_sp : s.backPc.sp = s.sp := rfl
@[simp] theorem backPc_dt : s.backPc.dt = s.dt := rfl
@[simp] theorem backPc_st : s.backPc.st = s.st := rfl
@[simp] theorem backPc_mem : s.backPc.mem = s.mem := rfl
@[simp] theorem backPc_display : s.backPc.display = s.display := rfl
@[simp] theorem backPc_fault : s.backPc.fault = s.fault := rfl
@[simp] theorem backPc_inputs : s.backPc.inputs = s.inputs := rfl
@[simp] theorem backPc_tick : s.backPc.tick = s.tick := rfl
@[simp] theorem backPc_phase : s.backPc.phase = s.phase := rfl
@[simp] theorem getV_backPc (r : RegIdx) : s.backPc.getV r = s.getV r := rfl
@[simp] theorem backPc_input : s.backPc.input = s.input := rfl

/-- Going back undoes the advance of R272. -/
@[simp] theorem advance_backPc : s.advance.backPc = s := by
  have h : s.pc + 2 - 2 = s.pc := BitVec.add_sub_cancel s.pc 2
  show ({ s with pc := s.pc + 2 - 2 } : State) = s
  rw [h]

@[simp] theorem getV_advance (r : RegIdx) : s.advance.getV r = s.getV r := rfl
@[simp] theorem advance_input : s.advance.input = s.input := rfl

@[simp] theorem latchFault_v (c : Fault) (n : Nat) : (s.latchFault c n).v = s.v := rfl
@[simp] theorem latchFault_i (c : Fault) (n : Nat) : (s.latchFault c n).i = s.i := rfl
@[simp] theorem latchFault_pc (c : Fault) (n : Nat) : (s.latchFault c n).pc = s.pc := rfl
@[simp] theorem latchFault_stack (c : Fault) (n : Nat) : (s.latchFault c n).stack = s.stack := rfl
@[simp] theorem latchFault_sp (c : Fault) (n : Nat) : (s.latchFault c n).sp = s.sp := rfl
@[simp] theorem latchFault_dt (c : Fault) (n : Nat) : (s.latchFault c n).dt = s.dt := rfl
@[simp] theorem latchFault_st (c : Fault) (n : Nat) : (s.latchFault c n).st = s.st := rfl
@[simp] theorem latchFault_mem (c : Fault) (n : Nat) : (s.latchFault c n).mem = s.mem := rfl
@[simp] theorem latchFault_display (c : Fault) (n : Nat) : (s.latchFault c n).display = s.display := rfl
@[simp] theorem latchFault_inputs (c : Fault) (n : Nat) : (s.latchFault c n).inputs = s.inputs := rfl
@[simp] theorem latchFault_tick (c : Fault) (n : Nat) : (s.latchFault c n).tick = s.tick := rfl
@[simp] theorem latchFault_phase (c : Fault) (n : Nat) : (s.latchFault c n).phase = s.phase := rfl
@[simp] theorem latchFault_fault (c : Fault) (n : Nat) : (s.latchFault c n).fault = some ⟨c, s.pc, n⟩ := rfl
@[simp] theorem getV_latchFault (c : Fault) (n : Nat) (r : RegIdx) : (s.latchFault c n).getV r = s.getV r := rfl

theorem getV_setV (x r : RegIdx) (b : Byte) : (s.setV x b).getV r = if r = x then b else s.getV r := by
  simp [State.getV, State.setV, Vector.getElem_set, Fin.ext_iff, eq_comm]

@[simp] theorem getV_setV_same (x : RegIdx) (b : Byte) : (s.setV x b).getV x = b := by simp [getV_setV]

theorem getV_setV_ne (x r : RegIdx) (b : Byte) (h : r ≠ x) : (s.setV x b).getV r = s.getV r := by simp [getV_setV, h]

theorem getV_setVF (r : RegIdx) (f : Bool) : (s.setVF f).getV r = if r = vF then flagByte f else s.getV r := by
  simp [State.setVF, getV_setV]

/-- With x = 0xF the flag is the final value of VF (R150). -/
theorem getV_setResultAndFlag (x r : RegIdx) (b : Byte) (f : Bool) :
    (s.setResultAndFlag x b f).getV r = if r = vF then flagByte f else if r = x then b else s.getV r := by
  simp only [State.setResultAndFlag, getV_setVF, getV_setV]

@[simp] theorem getV_setVs (vs : Vector Byte 16) (r : RegIdx) : (s.setVs vs).getV r = vs[r] := rfl

/-- Two register files are equal when every register reads the same. -/
theorem regs_ext (s t : State) (h : ∀ r, s.getV r = t.getV r) : s.v = t.v :=
  Vector.ext fun k hk => h ⟨k, hk⟩

/-- An update of V followed by writing the old V back is no change. -/
theorem setV_setVs (x : RegIdx) (b : Byte) (vs : Vector Byte 16) : (s.setV x b).setVs vs = s.setVs vs := rfl

@[simp] theorem setVs_self : s.setVs s.v = s := rfl

@[simp] theorem setVs_setVs (a b : Vector Byte 16) : (s.setVs a).setVs b = s.setVs b := rfl

end Sys2Proof.Machine
end

