-- ==== Sys2Proof/Laws/Exec.lean ====
section
/-! SUPPORT. One inversion lemma for each instruction whose outcome depends on a check: everything it can answer. -/

namespace Sys2Proof.Machine

theorem execRet_cases (s : State) :
    (s.sp.toNat = 0 ∧ execRet s = raise .stackUnderflow 0 s) ∨
    ((1 ≤ s.sp.toNat ∧ s.sp.toNat ≤ 16) ∧ ∃ h : s.sp.toNat - 1 < 16,
      execRet s = .next ((s.setSp (s.sp - 1)).setPc s.stack[s.sp.toNat - 1])) ∨
    (16 < s.sp.toNat ∧ execRet s = .refused .illegalStackPointer) := by
  by_cases h0 : s.sp = 0
  · exact Or.inl ⟨by simp [h0], by simp [execRet, h0]⟩
  · have h1 : s.sp.toNat ≠ 0 := fun h => h0 (BitVec.eq_of_toNat_eq h)
    by_cases h : s.sp.toNat - 1 < 16
    · refine Or.inr (Or.inl ⟨⟨by omega, by omega⟩, h, ?_⟩)
      simp only [execRet, if_neg h0, Vector.getElem?_eq_getElem h]
    · refine Or.inr (Or.inr ⟨by omega, ?_⟩)
      have hn : s.stack[s.sp.toNat - 1]? = none := by rw [Vector.getElem?_eq_none_iff]; omega
      simp only [execRet, if_neg h0, hn]

theorem execCall_cases (nnn : Addr) (s : State) :
    (s.sp.toNat = 16 ∧ execCall nnn s = raise .stackOverflow 16 s) ∨
    (∃ h : s.sp.toNat < 16, execCall nnn s =
      .next (((s.setStack (s.stack.set s.sp.toNat s.pc h)).setSp (s.sp + 1)).setPc (addrOperand nnn))) ∨
    (16 < s.sp.toNat ∧ execCall nnn s = .refused .illegalStackPointer) := by
  by_cases h0 : s.sp.toNat = 16
  · exact Or.inl ⟨h0, by simp [execCall, h0]⟩
  · by_cases h : s.sp.toNat < 16
    · exact Or.inr (Or.inl ⟨h, by simp only [execCall, if_neg h0, dif_pos h]⟩)
    · exact Or.inr (Or.inr ⟨by omega, by simp only [execCall, if_neg h0, dif_neg h]⟩)

theorem execLdBVx_cases (x : RegIdx) (s : State) :
    (s.i.toNat + 2 > 0xFFF ∧ execLdBVx x s = raise .writeOutOfRange (max s.i.toNat 0x1000) s) ∨
    (s.i.toNat + 2 ≤ 0xFFF ∧
      execLdBVx x s = .next (s.setMem (s.mem.writeBytes s.i.toNat (decimalDigits (s.getV x))))) := by
  by_cases h : InRange s.i.toNat 3
  · have h' := h; simp only [InRange] at h'
    exact Or.inr ⟨by omega, by simp only [execLdBVx, if_pos h]⟩
  · have h' := not_inRange _ _ h
    exact Or.inl ⟨by omega, by simp only [execLdBVx, if_neg h, leastOutOfRange]⟩

theorem execLdMemVx_cases (x : RegIdx) (s : State) :
    (s.i.toNat + x.val > 0xFFF ∧ execLdMemVx x s = raise .writeOutOfRange (max s.i.toNat 0x1000) s) ∨
    (s.i.toNat + x.val ≤ 0xFFF ∧ execLdMemVx x s = .next (s.setMem (s.mem.writeBytes s.i.toNat (s.regsUpTo x)))) := by
  by_cases h : InRange s.i.toNat (x.val + 1)
  · have h' := h; simp only [InRange] at h'
    exact Or.inr ⟨by omega, by simp only [execLdMemVx, if_pos h]⟩
  · have h' := not_inRange _ _ h
    exact Or.inl ⟨by omega, by simp only [execLdMemVx, if_neg h, leastOutOfRange]⟩

theorem execLdVxMem_cases (x : RegIdx) (s : State) :
    (s.i.toNat + x.val > 0xFFF ∧ execLdVxMem x s = raise .readOutOfRange (max s.i.toNat 0x1000) s) ∨
    (s.i.toNat + x.val ≤ 0xFFF ∧ execLdVxMem x s = .next (s.setVs (s.regsLoaded x s.i.toNat))) := by
  by_cases h : InRange s.i.toNat (x.val + 1)
  · have h' := h; simp only [InRange] at h'
    exact Or.inr ⟨by omega, by simp only [execLdVxMem, if_pos h]⟩
  · have h' := not_inRange _ _ h
    exact Or.inl ⟨by omega, by simp only [execLdVxMem, if_neg h, leastOutOfRange]⟩

/-- The display and the collision flag that DRW leaves. -/
def State.drawn (s : State) (x y : RegIdx) (n : Fin 16) : Draw :=
  drawSprite s.mem s.i.toNat ((s.getV x).toNat % 64) ((s.getV y).toNat % 32) n { display := s.display, collision := false }

theorem execDrw_cases (x y : RegIdx) (n : Fin 16) (s : State) :
    ((n.val > 0 ∧ s.i.toNat + n.val - 1 > 0xFFF) ∧
      execDrw x y n s = raise .readOutOfRange (max s.i.toNat 0x1000) s) ∨
    (¬ (n.val > 0 ∧ s.i.toNat + n.val - 1 > 0xFFF) ∧ InRange s.i.toNat n ∧
      execDrw x y n s = .next ((s.setDisplay (s.drawn x y n).display).setVF (s.drawn x y n).collision)) := by
  by_cases h : InRange s.i.toNat n
  · have h' := h; simp only [InRange] at h'
    exact Or.inr ⟨by omega, h, by simp only [execDrw, if_pos h]; rfl⟩
  · have h' := not_inRange _ _ h
    exact Or.inl ⟨by omega, by simp only [execDrw, if_neg h, leastOutOfRange]⟩

theorem keyOperand_cases (s : State) (k : Nat) :
    (k > 0xF ∧ s.keyOperand k = none) ∨ (∃ h : k < 16, s.keyOperand k = some s.input.keys[k]) := by
  unfold State.keyOperand
  by_cases h : k < 16
  · exact Or.inr ⟨h, Vector.getElem?_eq_getElem h⟩
  · exact Or.inl ⟨by omega, by rw [Vector.getElem?_eq_none_iff]; omega⟩

theorem execSkp_cases (x : RegIdx) (s : State) :
    ((s.getV x).toNat > 0xF ∧ execSkp x s = raise .keyOutOfRange (s.getV x).toNat s) ∨
    (∃ h : (s.getV x).toNat < 16, execSkp x s = .next (s.skipIf s.input.keys[(s.getV x).toNat])) := by
  rcases keyOperand_cases s (s.getV x).toNat with ⟨h, hk⟩ | ⟨h, hk⟩
  · exact Or.inl ⟨h, by simp only [execSkp, hk]⟩
  · exact Or.inr ⟨h, by simp only [execSkp, hk]⟩

theorem execSknp_cases (x : RegIdx) (s : State) :
    ((s.getV x).toNat > 0xF ∧ execSknp x s = raise .keyOutOfRange (s.getV x).toNat s) ∨
    (∃ h : (s.getV x).toNat < 16, execSknp x s = .next (s.skipIf (!s.input.keys[(s.getV x).toNat]))) := by
  rcases keyOperand_cases s (s.getV x).toNat with ⟨h, hk⟩ | ⟨h, hk⟩
  · exact Or.inl ⟨h, by simp only [execSknp, hk]⟩
  · exact Or.inr ⟨h, by simp only [execSknp, hk]⟩

theorem execLdVxK_cases (x : RegIdx) (s : State) :
    (leastPressed s.input.keys = none ∧ execLdVxK x s = .next s.backPc) ∨
    (∃ k, leastPressed s.input.keys = some k ∧ execLdVxK x s = .next (s.setV x (BitVec.ofNat 8 k))) := by
  cases h : leastPressed s.input.keys with
  | none => exact Or.inl ⟨rfl, by simp only [execLdVxK, h]⟩
  | some k => exact Or.inr ⟨k, rfl, by simp only [execLdVxK, h]⟩

theorem skipIf_pc (s : State) (b : Bool) : (s.skipIf b).pc = if b then s.pc + 2 else s.pc := by
  cases b <;> rfl

theorem skipIf_setPc (s : State) (b : Bool) : ∃ a, s.skipIf b = s.setPc a ∧ (a = s.pc ∨ a = s.pc + 2) := by
  cases b
  · exact ⟨s.pc, rfl, Or.inl rfl⟩
  · exact ⟨s.pc + 2, rfl, Or.inr rfl⟩

end Sys2Proof.Machine
end

