-- ==== Sys2Proof/Laws/PerInstr.lean ====
section
/-! SUPPORT. Statements about every instruction as syntax, one lemma per constructor. -/

namespace Sys2Proof.Laws

/-- The fixed bits of the instruction's row in spec/opcode_table.json, as (hi, lo, value). -/
def fixedBits : Instr → List (Nat × Nat × Nat)
  | .cls => [(3, 0, 0x0), (15, 12, 0x0)]
  | .ret => [(3, 0, 0xE), (15, 12, 0x0)]
  | .jp _ => [(15, 12, 0x1)]
  | .call _ => [(15, 12, 0x2)]
  | .seVxKk _ _ => [(15, 12, 0x3)]
  | .sneVxKk _ _ => [(15, 12, 0x4)]
  | .seVxVy _ _ => [(15, 12, 0x5)]
  | .ldVxKk _ _ => [(15, 12, 0x6)]
  | .addVxKk _ _ => [(15, 12, 0x7)]
  | .ldVxVy _ _ => [(3, 0, 0x0), (15, 12, 0x8)]
  | .orVxVy _ _ => [(3, 0, 0x1), (15, 12, 0x8)]
  | .andVxVy _ _ => [(3, 0, 0x2), (15, 12, 0x8)]
  | .xorVxVy _ _ => [(3, 0, 0x3), (15, 12, 0x8)]
  | .addVxVy _ _ => [(3, 0, 0x4), (15, 12, 0x8)]
  | .subVxVy _ _ => [(3, 0, 0x5), (15, 12, 0x8)]
  | .shrVx _ => [(3, 0, 0x6), (15, 12, 0x8)]
  | .subnVxVy _ _ => [(3, 0, 0x7), (15, 12, 0x8)]
  | .shlVx _ => [(3, 0, 0xE), (15, 12, 0x8)]
  | .sneVxVy _ _ => [(15, 12, 0x9)]
  | .ldI _ => [(15, 12, 0xA)]
  | .jpV0 _ => [(15, 12, 0xB)]
  | .rnd _ _ => [(15, 12, 0xC)]
  | .drw _ _ _ => [(15, 12, 0xD)]
  | .skp _ => [(3, 0, 0xE), (15, 12, 0xE)]
  | .sknp _ => [(3, 0, 0x1), (15, 12, 0xE)]
  | .ldVxDt _ => [(7, 0, 0x7), (15, 12, 0xF)]
  | .ldVxK _ => [(7, 0, 0xA), (15, 12, 0xF)]
  | .ldDtVx _ => [(7, 0, 0x15), (15, 12, 0xF)]
  | .ldStVx _ => [(7, 0, 0x18), (15, 12, 0xF)]
  | .addIVx _ => [(7, 0, 0x1E), (15, 12, 0xF)]
  | .ldFVx _ => [(7, 0, 0x29), (15, 12, 0xF)]
  | .ldBVx _ => [(7, 0, 0x33), (15, 12, 0xF)]
  | .ldMemVx _ => [(7, 0, 0x55), (15, 12, 0xF)]
  | .ldVxMem _ => [(7, 0, 0x65), (15, 12, 0xF)]

/-- The encoded word has the fixed bits of the instruction's row. -/
def TableRow.Statement (i : Instr) : Prop := ∀ f ∈ fixedBits i, bits (encode i) f.1 f.2.1 = f.2.2

/-- The nibbles of a word written from its nibbles. -/
theorem bits_wordOfNibbles (op a b c : Nat) (ho : op < 16) (ha : a < 16) (hb : b < 16) (hc : c < 16) :
    bits (wordOfNibbles op a b c) 15 12 = op ∧ bits (wordOfNibbles op a b c) 11 8 = a ∧
    bits (wordOfNibbles op a b c) 7 4 = b ∧ bits (wordOfNibbles op a b c) 3 0 = c ∧
    bits (wordOfNibbles op a b c) 7 0 = b * 16 + c := by
  simp only [bits, wordOfNibbles, BitVec.toNat_ofNat]
  refine ⟨?_, ?_, ?_, ?_, ?_⟩ <;> omega

/-- The fields of a word of format XK. -/
theorem bits_wordXK (op : Nat) (x : RegIdx) (kk : Byte) (ho : op < 16) :
    bits (wordXK op x kk) 15 12 = op ∧ bits (wordXK op x kk) 11 8 = x ∧ bits (wordXK op x kk) 7 0 = kk.toNat := by
  have := x.isLt
  have := kk.isLt
  simp only [bits, wordXK, BitVec.toNat_ofNat]
  refine ⟨?_, ?_, ?_⟩ <;> omega

/-- The fields of a word of format A. -/
theorem bits_wordA (op : Nat) (nnn : Addr) (ho : op < 16) :
    bits (wordA op nnn) 15 12 = op ∧ bits (wordA op nnn) 11 0 = nnn.toNat := by
  have := nnn.isLt
  simp only [bits, wordA, BitVec.toNat_ofNat]
  refine ⟨?_, ?_⟩ <;> omega

theorem TableRow.cls : TableRow.Statement .cls := by
  unfold TableRow.Statement
  decide

theorem TableRow.ret : TableRow.Statement .ret := by
  unfold TableRow.Statement
  decide

theorem TableRow.jp (nnn : Addr) : TableRow.Statement (.jp nnn) := by
  simpa [TableRow.Statement, fixedBits, encode] using (bits_wordA 1 nnn (by decide)).1

theorem TableRow.call (nnn : Addr) : TableRow.Statement (.call nnn) := by
  simpa [TableRow.Statement, fixedBits, encode] using (bits_wordA 2 nnn (by decide)).1

theorem TableRow.seVxKk (x : RegIdx) (kk : Byte) : TableRow.Statement (.seVxKk x kk) := by
  simpa [TableRow.Statement, fixedBits, encode] using (bits_wordXK 3 x kk (by decide)).1

theorem TableRow.sneVxKk (x : RegIdx) (kk : Byte) : TableRow.Statement (.sneVxKk x kk) := by
  simpa [TableRow.Statement, fixedBits, encode] using (bits_wordXK 4 x kk (by decide)).1

theorem TableRow.seVxVy (x y : RegIdx) : TableRow.Statement (.seVxVy x y) := by
  have h := bits_wordOfNibbles 5 x y 0 (by decide) x.isLt y.isLt (by decide)
  simp [TableRow.Statement, fixedBits, encode, h]

theorem TableRow.ldVxKk (x : RegIdx) (kk : Byte) : TableRow.Statement (.ldVxKk x kk) := by
  simpa [TableRow.Statement, fixedBits, encode] using (bits_wordXK 6 x kk (by decide)).1

theorem TableRow.addVxKk (x : RegIdx) (kk : Byte) : TableRow.Statement (.addVxKk x kk) := by
  simpa [TableRow.Statement, fixedBits, encode] using (bits_wordXK 7 x kk (by decide)).1

theorem TableRow.ldVxVy (x y : RegIdx) : TableRow.Statement (.ldVxVy x y) := by
  have h := bits_wordOfNibbles 8 x y 0 (by decide) x.isLt y.isLt (by decide)
  simp [TableRow.Statement, fixedBits, encode, h]

theorem TableRow.orVxVy (x y : RegIdx) : TableRow.Statement (.orVxVy x y) := by
  have h := bits_wordOfNibbles 8 x y 1 (by decide) x.isLt y.isLt (by decide)
  simp [TableRow.Statement, fixedBits, encode, h]

theorem TableRow.andVxVy (x y : RegIdx) : TableRow.Statement (.andVxVy x y) := by
  have h := bits_wordOfNibbles 8 x y 2 (by decide) x.isLt y.isLt (by decide)
  simp [TableRow.Statement, fixedBits, encode, h]

theorem TableRow.xorVxVy (x y : RegIdx) : TableRow.Statement (.xorVxVy x y) := by
  have h := bits_wordOfNibbles 8 x y 3 (by decide) x.isLt y.isLt (by decide)
  simp [TableRow.Statement, fixedBits, encode, h]

theorem TableRow.addVxVy (x y : RegIdx) : TableRow.Statement (.addVxVy x y) := by
  have h := bits_wordOfNibbles 8 x y 4 (by decide) x.isLt y.isLt (by decide)
  simp [TableRow.Statement, fixedBits, encode, h]

theorem TableRow.subVxVy (x y : RegIdx) : TableRow.Statement (.subVxVy x y) := by
  have h := bits_wordOfNibbles 8 x y 5 (by decide) x.isLt y.isLt (by decide)
  simp [TableRow.Statement, fixedBits, encode, h]

theorem TableRow.shrVx (x : RegIdx) : TableRow.Statement (.shrVx x) := by
  have h := bits_wordOfNibbles 8 x x 6 (by decide) x.isLt x.isLt (by decide)
  simp [TableRow.Statement, fixedBits, encode, h]

theorem TableRow.subnVxVy (x y : RegIdx) : TableRow.Statement (.subnVxVy x y) := by
  have h := bits_wordOfNibbles 8 x y 7 (by decide) x.isLt y.isLt (by decide)
  simp [TableRow.Statement, fixedBits, encode, h]

theorem TableRow.shlVx (x : RegIdx) : TableRow.Statement (.shlVx x) := by
  have h := bits_wordOfNibbles 8 x x 14 (by decide) x.isLt x.isLt (by decide)
  simp [TableRow.Statement, fixedBits, encode, h]

theorem TableRow.sneVxVy (x y : RegIdx) : TableRow.Statement (.sneVxVy x y) := by
  have h := bits_wordOfNibbles 9 x y 0 (by decide) x.isLt y.isLt (by decide)
  simp [TableRow.Statement, fixedBits, encode, h]

theorem TableRow.ldI (nnn : Addr) : TableRow.Statement (.ldI nnn) := by
  simpa [TableRow.Statement, fixedBits, encode] using (bits_wordA 10 nnn (by decide)).1

theorem TableRow.jpV0 (nnn : Addr) : TableRow.Statement (.jpV0 nnn) := by
  simpa [TableRow.Statement, fixedBits, encode] using (bits_wordA 11 nnn (by decide)).1

theorem TableRow.rnd (x : RegIdx) (kk : Byte) : TableRow.Statement (.rnd x kk) := by
  simpa [TableRow.Statement, fixedBits, encode] using (bits_wordXK 12 x kk (by decide)).1

theorem TableRow.drw (x y : RegIdx) (n : Fin 16) : TableRow.Statement (.drw x y n) := by
  have h := bits_wordOfNibbles 13 x y n (by decide) x.isLt y.isLt n.isLt
  simp [TableRow.Statement, fixedBits, encode, h]

theorem TableRow.skp (x : RegIdx) : TableRow.Statement (.skp x) := by
  have h := bits_wordOfNibbles 14 x 9 14 (by decide) x.isLt (by decide) (by decide)
  simp [TableRow.Statement, fixedBits, encode, h]

theorem TableRow.sknp (x : RegIdx) : TableRow.Statement (.sknp x) := by
  have h := bits_wordOfNibbles 14 x 10 1 (by decide) x.isLt (by decide) (by decide)
  simp [TableRow.Statement, fixedBits, encode, h]

theorem TableRow.ldVxDt (x : RegIdx) : TableRow.Statement (.ldVxDt x) := by
  have h := bits_wordOfNibbles 15 x 0 7 (by decide) x.isLt (by decide) (by decide)
  simp [TableRow.Statement, fixedBits, encode, h]

theorem TableRow.ldVxK (x : RegIdx) : TableRow.Statement (.ldVxK x) := by
  have h := bits_wordOfNibbles 15 x 0 10 (by decide) x.isLt (by decide) (by decide)
  simp [TableRow.Statement, fixedBits, encode, h]

theorem TableRow.ldDtVx (x : RegIdx) : TableRow.Statement (.ldDtVx x) := by
  have h := bits_wordOfNibbles 15 x 1 5 (by decide) x.isLt (by decide) (by decide)
  simp [TableRow.Statement, fixedBits, encode, h]

theorem TableRow.ldStVx (x : RegIdx) : TableRow.Statement (.ldStVx x) := by
  have h := bits_wordOfNibbles 15 x 1 8 (by decide) x.isLt (by decide) (by decide)
  simp [TableRow.Statement, fixedBits, encode, h]

theorem TableRow.addIVx (x : RegIdx) : TableRow.Statement (.addIVx x) := by
  have h := bits_wordOfNibbles 15 x 1 14 (by decide) x.isLt (by decide) (by decide)
  simp [TableRow.Statement, fixedBits, encode, h]

theorem TableRow.ldFVx (x : RegIdx) : TableRow.Statement (.ldFVx x) := by
  have h := bits_wordOfNibbles 15 x 2 9 (by decide) x.isLt (by decide) (by decide)
  simp [TableRow.Statement, fixedBits, encode, h]

theorem TableRow.ldBVx (x : RegIdx) : TableRow.Statement (.ldBVx x) := by
  have h := bits_wordOfNibbles 15 x 3 3 (by decide) x.isLt (by decide) (by decide)
  simp [TableRow.Statement, fixedBits, encode, h]

theorem TableRow.ldMemVx (x : RegIdx) : TableRow.Statement (.ldMemVx x) := by
  have h := bits_wordOfNibbles 15 x 5 5 (by decide) x.isLt (by decide) (by decide)
  simp [TableRow.Statement, fixedBits, encode, h]

theorem TableRow.ldVxMem (x : RegIdx) : TableRow.Statement (.ldVxMem x) := by
  have h := bits_wordOfNibbles 15 x 6 5 (by decide) x.isLt (by decide) (by decide)
  simp [TableRow.Statement, fixedBits, encode, h]

end Sys2Proof.Laws
end

