-- ==== Sys2Proof/Laws/Step.lean ====
section
/-! SUPPORT. What one step can do: its cases, the end of a cycle, and how an instruction touches the latch and the
model's own fields. -/

namespace Sys2Proof.Machine

/-- A timer after one decay (R274), with subtraction that stops at 0. -/
@[simp] theorem decayed_toNat (t : Byte) : (decayed t).toNat = t.toNat - 1 := by
  unfold decayed
  split
  · next h => simp [h]
  · next h =>
    have h0 : t.toNat ≠ 0 := fun h' => h (BitVec.eq_of_toNat_eq h')
    have := t.isLt
    have h1 : (1 : Byte).toNat = 1 := rfl
    rw [BitVec.toNat_sub, h1]; omega

/-- Raising a fault right after the advance is fault entry from the state at the start of the step (R302). -/
theorem raise_advance (c : Fault) (n : Nat) (s : State) : raise c n s.advance = .next (s.latchFault c n) := by
  simp [raise]

theorem endCycle_faulted (s : State) (f : FaultRecord) (h : s.fault = some f) : s.endCycle = s := by
  simp [State.endCycle, h]

theorem endCycle_running (s : State) (h : s.fault = none) :
    s.endCycle = { s with dt := decayed s.dt, st := decayed s.st, inputs := s.inputs.tail, tick := s.tick + 1, phase := .running } := by
  simp [State.endCycle, h]

@[simp] theorem endCycle_v (s : State) : s.endCycle.v = s.v := by unfold State.endCycle; split <;> rfl
@[simp] theorem endCycle_i (s : State) : s.endCycle.i = s.i := by unfold State.endCycle; split <;> rfl
@[simp] theorem endCycle_pc (s : State) : s.endCycle.pc = s.pc := by unfold State.endCycle; split <;> rfl
@[simp] theorem endCycle_stack (s : State) : s.endCycle.stack = s.stack := by unfold State.endCycle; split <;> rfl
@[simp] theorem endCycle_sp (s : State) : s.endCycle.sp = s.sp := by unfold State.endCycle; split <;> rfl
@[simp] theorem endCycle_mem (s : State) : s.endCycle.mem = s.mem := by unfold State.endCycle; split <;> rfl
@[simp] theorem endCycle_display (s : State) : s.endCycle.display = s.display := by unfold State.endCycle; split <;> rfl
@[simp] theorem endCycle_fault (s : State) : s.endCycle.fault = s.fault := by unfold State.endCycle; split <;> rfl
@[simp] theorem getV_endCycle (s : State) (r : RegIdx) : s.endCycle.getV r = s.getV r := by simp [State.getV]

/-- A halted core's step changes nothing (R303). -/
theorem step_halted (s : State) (f : FaultRecord) (h : s.fault = some f) : step s = .next s := by
  simp [step, h]

theorem fetch_none (s : State) (h : s.pc.toNat > 0xFFE) : s.fetch = none := by
  unfold State.fetch; rw [if_neg (by omega)]

theorem fetch_some (s : State) (h : s.pc.toNat ≤ 0xFFE) :
    s.fetch = some (wordOfBytes (s.mem.read s.pc.toNat) (s.mem.read (s.pc.toNat + 1))) := by
  unfold State.fetch; rw [if_pos h]

theorem fetch_range (s : State) (w : Word) (h : s.fetch = some w) : s.pc.toNat ≤ 0xFFE := by
  by_contra hc
  rw [fetch_none s (by omega)] at h
  cases h

theorem step_fetchFault (s : State) (hf : s.fault = none) (h : s.fetch = none) :
    step s = .next (s.latchFault .fetchOutOfRange s.pc.toNat) := by
  simp [step, hf, h]

theorem step_runs (s : State) (w : Word) (hf : s.fault = none) (h : s.fetch = some w) :
    step s = finishStep (runHandler (decode w) s.advance) := by
  simp [step, hf, h]

theorem finishStep_next (o : Host.Outcome State Fault Refusal) (t : State) (h : finishStep o = .next t) :
    ∃ u, o = .next u ∧ t = u.endCycle := by
  cases o with
  | next u => exact ⟨u, rfl, by simpa [finishStep] using h.symm⟩
  | fault f => simp [finishStep] at h
  | refused r => simp [finishStep] at h

/-- The cases of a step that answers a next state (R270): the core is halted; the fetch faults; or a handler runs on the
state after the advance and the cycle ends. -/
theorem step_cases (s t : State) (h : step s = .next t) :
    (s.fault.isSome ∧ t = s) ∨
    (s.fault = none ∧ s.pc.toNat > 0xFFE ∧ t = s.latchFault .fetchOutOfRange s.pc.toNat) ∨
    (∃ w u, s.fault = none ∧ s.fetch = some w ∧ runHandler (decode w) s.advance = .next u ∧ t = u.endCycle) := by
  cases hf : s.fault with
  | some f =>
    rw [step_halted s f hf] at h
    cases h; exact Or.inl ⟨rfl, rfl⟩
  | none =>
    by_cases hp : s.pc.toNat ≤ 0xFFE
    · have hw := fetch_some s hp
      rw [step_runs s _ hf hw] at h
      obtain ⟨u, h1, h2⟩ := finishStep_next _ _ h
      exact Or.inr (Or.inr ⟨_, u, rfl, hw, h1, h2⟩)
    · have hw := fetch_none s (by omega)
      rw [step_fetchFault s hf hw] at h
      cases h
      exact Or.inr (Or.inl ⟨rfl, by omega, rfl⟩)

/-- What every instruction leaves to the step around it: the model's own fields are untouched, and the latch is either set
by a raised fault, with everything else as it was, or left alone. -/
def LatchOrKeep (s t : State) : Prop :=
  (t.inputs = s.inputs ∧ t.tick = s.tick ∧ t.phase = s.phase) ∧ ((∃ c n, t = s.backPc.latchFault c n) ∨ t.fault = s.fault)

theorem latchOrKeep_latch (s : State) (c : Fault) (n : Nat) : LatchOrKeep s (s.backPc.latchFault c n) :=
  ⟨⟨rfl, rfl, rfl⟩, Or.inl ⟨c, n, rfl⟩⟩

theorem latchOrKeep_skipIf (s : State) (b : Bool) : LatchOrKeep s (s.skipIf b) := by
  obtain ⟨a, h, _⟩ := skipIf_setPc s b
  rw [h]; exact ⟨⟨rfl, rfl, rfl⟩, Or.inr rfl⟩

theorem exec_latchOrKeep (i : Instr) (s t : State) (h : exec i s = .next t) : LatchOrKeep s t := by
  have raised : ∀ c n o, o = raise c n s → o = .next t → LatchOrKeep s t := by
    intro c n o h1 h2
    rw [h1, raise] at h2; cases h2; exact latchOrKeep_latch s c n
  have kept : ∀ (o : Host.Outcome State Fault Refusal) u, o = .next u → o = .next t →
      (u.inputs = s.inputs ∧ u.tick = s.tick ∧ u.phase = s.phase) → u.fault = s.fault → LatchOrKeep s t := by
    intro o u h1 h2 h3 h4
    rw [h1] at h2; cases h2; exact ⟨h3, Or.inr h4⟩
  have skipped : ∀ (o : Host.Outcome State Fault Refusal) b, o = .next (s.skipIf b) → o = .next t → LatchOrKeep s t := by
    intro o b h1 h2
    rw [h1] at h2; cases h2; exact latchOrKeep_skipIf s b
  cases i with
  | ret =>
    simp only [exec] at h
    rcases execRet_cases s with ⟨_, e⟩ | ⟨_, _, e⟩ | ⟨_, e⟩
    · exact raised _ _ _ e h
    · exact kept _ _ e h (by simp) (by simp)
    · exact absurd (e.symm.trans h) (by simp)
  | call nnn =>
    simp only [exec] at h
    rcases execCall_cases nnn s with ⟨_, e⟩ | ⟨_, e⟩ | ⟨_, e⟩
    · exact raised _ _ _ e h
    · exact kept _ _ e h (by simp) (by simp)
    · exact absurd (e.symm.trans h) (by simp)
  | drw x y n =>
    simp only [exec] at h
    rcases execDrw_cases x y n s with ⟨_, e⟩ | ⟨_, _, e⟩
    · exact raised _ _ _ e h
    · exact kept _ _ e h (by simp) (by simp)
  | ldBVx x =>
    simp only [exec] at h
    rcases execLdBVx_cases x s with ⟨_, e⟩ | ⟨_, e⟩
    · exact raised _ _ _ e h
    · exact kept _ _ e h (by simp) (by simp)
  | ldMemVx x =>
    simp only [exec] at h
    rcases execLdMemVx_cases x s with ⟨_, e⟩ | ⟨_, e⟩
    · exact raised _ _ _ e h
    · exact kept _ _ e h (by simp) (by simp)
  | ldVxMem x =>
    simp only [exec] at h
    rcases execLdVxMem_cases x s with ⟨_, e⟩ | ⟨_, e⟩
    · exact raised _ _ _ e h
    · exact kept _ _ e h (by simp) (by simp)
  | skp x =>
    simp only [exec] at h
    rcases execSkp_cases x s with ⟨_, e⟩ | ⟨_, e⟩
    · exact raised _ _ _ e h
    · exact skipped _ _ e h
  | sknp x =>
    simp only [exec] at h
    rcases execSknp_cases x s with ⟨_, e⟩ | ⟨_, e⟩
    · exact raised _ _ _ e h
    · exact skipped _ _ e h
  | ldVxK x =>
    simp only [exec] at h
    rcases execLdVxK_cases x s with ⟨_, e⟩ | ⟨k, _, e⟩
    · exact kept _ _ e h (by simp) (by simp)
    · exact kept _ _ e h (by simp) (by simp)
  | seVxKk x kk => exact skipped _ _ rfl h
  | sneVxKk x kk => exact skipped _ _ rfl h
  | seVxVy x y => exact skipped _ _ rfl h
  | sneVxVy x y => exact skipped _ _ rfl h
  | cls => exact kept _ _ rfl h ⟨rfl, rfl, rfl⟩ rfl
  | jp nnn => exact kept _ _ rfl h ⟨rfl, rfl, rfl⟩ rfl
  | ldVxKk x kk => exact kept _ _ rfl h ⟨rfl, rfl, rfl⟩ rfl
  | addVxKk x kk => exact kept _ _ rfl h ⟨rfl, rfl, rfl⟩ rfl
  | ldVxVy x y => exact kept _ _ rfl h ⟨rfl, rfl, rfl⟩ rfl
  | orVxVy x y => exact kept _ _ rfl h ⟨rfl, rfl, rfl⟩ rfl
  | andVxVy x y => exact kept _ _ rfl h ⟨rfl, rfl, rfl⟩ rfl
  | xorVxVy x y => exact kept _ _ rfl h ⟨rfl, rfl, rfl⟩ rfl
  | addVxVy x y => exact kept _ _ rfl h ⟨rfl, rfl, rfl⟩ rfl
  | subVxVy x y => exact kept _ _ rfl h ⟨rfl, rfl, rfl⟩ rfl
  | shrVx x => exact kept _ _ rfl h ⟨rfl, rfl, rfl⟩ rfl
  | subnVxVy x y => exact kept _ _ rfl h ⟨rfl, rfl, rfl⟩ rfl
  | shlVx x => exact kept _ _ rfl h ⟨rfl, rfl, rfl⟩ rfl
  | ldI nnn => exact kept _ _ rfl h ⟨rfl, rfl, rfl⟩ rfl
  | jpV0 nnn => exact kept _ _ rfl h ⟨rfl, rfl, rfl⟩ rfl
  | rnd x kk => exact kept _ _ rfl h ⟨rfl, rfl, rfl⟩ rfl
  | ldVxDt x => exact kept _ _ rfl h ⟨rfl, rfl, rfl⟩ rfl
  | ldDtVx x => exact kept _ _ rfl h ⟨rfl, rfl, rfl⟩ rfl
  | ldStVx x => exact kept _ _ rfl h ⟨rfl, rfl, rfl⟩ rfl
  | addIVx x => exact kept _ _ rfl h ⟨rfl, rfl, rfl⟩ rfl
  | ldFVx x => exact kept _ _ rfl h ⟨rfl, rfl, rfl⟩ rfl

theorem run_succ_of_step (M : Host.Core) (k : Nat) (s t : M.State) (h : M.step s = .next t) :
    M.run (k + 1) s = M.run k t := by
  simp only [Host.Core.run, h]

/-- A run whose first step answers a next state goes on from there. -/
theorem run_succ (k : Nat) (s t : State) (h : step s = .next t) :
    Host.Core.run Sys2Proof.core (k + 1) s = Host.Core.run Sys2Proof.core k t :=
  run_succ_of_step Sys2Proof.core k s t h

end Sys2Proof.Machine
end

