-- ==== Sys2Proof/Laws/WellFormed.lean ====
section
/-! SUPPORT. The operand types carry their ranges, so every instruction is well formed. -/

namespace Sys2Proof

theorem registerOk_index (x : RegIdx) : registerOk x = true := by
  have := x.isLt; simp [registerOk]; omega

theorem rowsOk_count (n : Fin 16) : rowsOk n = true := by
  have := n.isLt; simp [rowsOk]; omega

theorem byteOk_byte (kk : Byte) : byteOk kk.toNat = true := by
  have := kk.isLt; simp [byteOk]; omega

theorem addrOk_addr (nnn : Addr) : addrOk nnn.toNat = true := by
  have := nnn.isLt; simp [addrOk]; omega

theorem instr_wf (i : Instr) : i.wf = true := by
  cases i <;> simp [Instr.wf, registerOk_index, rowsOk_count, byteOk_byte, addrOk_addr]

end Sys2Proof
end

