-- ==== Sys2Proof/Tests/Slice0.lean ====
section
/-! SUPPORT. The model's own tests: the checks of WellFormed refuse ill-formed values; every constructor's decoding on a
word written out from spec/30_encoding.md; one step on small states, the expected values taken from
spec/95_test_vectors.md (the vector is named); and, for every statement with hypotheses, a witness that meets them. -/

open Sys2Proof Sys2Proof.Machine Sys2Proof.Statements

namespace Sys2Proof.Tests

/-! ### Small states -/

/-- No key pressed, random byte 0. -/
def quiet : StepInput := { keys := Vector.replicate 16 false, rnd := 0 }

/-- The listed keys pressed, random byte 0. -/
def pressing (l : List Nat) : StepInput := { keys := Vector.ofFn fun k => l.contains k.val, rnd := 0 }

/-- The reset state with two quiet steps to come. -/
def start : State := { State.reset with inputs := [quiet, quiet] }

/-- `start` with the listed registers set. -/
def withRegs (l : List (RegIdx × Byte)) : State := l.foldl (fun s p => s.setV p.1 p.2) start

/-- `start` with the listed bytes of memory. -/
def withBytes (base : Nat) (l : List Byte) (s : State) : State := s.setMem (s.mem.writeBytes base l)

/-- The step of the core with word `w` placed at PC. -/
def stepWord (s : State) (w : Nat) : Host.Outcome State Fault Refusal := step (s.withFetchWord 16 w)

/-- The outcome is a next state with the property. -/
def gives (o : Host.Outcome State Fault Refusal) (p : State → Bool) : Bool :=
  match o with
  | .next t => p t
  | .fault _ => false
  | .refused _ => false

/-- The latch holds this record. -/
def latched (t : State) (cause : Fault) (pc : Word) (info : Nat) : Bool := decide (t.fault = some ⟨cause, pc, info⟩)

/-- A display with exactly the listed pixels on. -/
def pixelsOn (l : List (Fin 64 × Fin 32)) : Display := l.foldl (fun d p => d.toggle p.1 p.2) Display.blank

/-! ### WellFormed refuses what does not fit -/

theorem test_wf_register_refused : registerOk 16 = false ∧ registerOk 15 = true := by decide
theorem test_wf_rows_refused : rowsOk 16 = false ∧ rowsOk 15 = true := by decide
theorem test_wf_byte_refused : byteOk 256 = false ∧ byteOk 255 = true := by decide
theorem test_wf_addr_refused : addrOk 4096 = false ∧ addrOk 4095 = true := by decide
theorem test_wf_program_refused : programOk (List.replicate 3585 0) = false ∧ programOk (List.replicate 3584 0) = true := by
  unfold programOk
  rw [List.length_replicate, List.length_replicate]
  decide

/-! ### Decoding: every constructor, the words written out from R84-R88 and the aliases of R90 -/

/-- Family 0: CLS, RET, their aliases, and the no-op of index 3. -/
theorem test_decode_family0 : decode 0x00E0 = .instr .cls ∧ decode 0x0000 = .instr .cls ∧ decode 0x00EE = .instr .ret ∧
    decode 0x0ABE = .instr .ret ∧ decode 0x0123 = .nop := by decide

/-- JP, CALL, LD I and JP V0: the 12-bit address. -/
theorem test_decode_addresses : decode 0x1345 = .instr (.jp 0x345) ∧ decode 0x2ABC = .instr (.call 0xABC) ∧
    decode 0xA123 = .instr (.ldI 0x123) ∧ decode 0xB30F = .instr (.jpV0 0x30F) := by decide

/-- SE, SNE, LD, ADD with kk, and RND: x then kk. -/
theorem test_decode_immediates : decode 0x3A07 = .instr (.seVxKk 0xA 0x07) ∧ decode 0x41FE = .instr (.sneVxKk 1 0xFE) ∧
    decode 0x6A42 = .instr (.ldVxKk 0xA 0x42) ∧ decode 0x7FFF = .instr (.addVxKk 0xF 0xFF) ∧
    decode 0xC20F = .instr (.rnd 2 0x0F) := by decide

/-- SE and SNE on registers, whatever w[3:0] is. -/
theorem test_decode_register_skips : decode 0x5120 = .instr (.seVxVy 1 2) ∧ decode 0x512F = .instr (.seVxVy 1 2) ∧
    decode 0x9120 = .instr (.sneVxVy 1 2) ∧ decode 0x9127 = .instr (.sneVxVy 1 2) := by decide

/-- Family 8: indices 0 to 7 and E; the rest is the no-op. -/
theorem test_decode_family8 : decode 0x8120 = .instr (.ldVxVy 1 2) ∧ decode 0x8121 = .instr (.orVxVy 1 2) ∧
    decode 0x8122 = .instr (.andVxVy 1 2) ∧ decode 0x8123 = .instr (.xorVxVy 1 2) ∧
    decode 0x8124 = .instr (.addVxVy 1 2) ∧ decode 0x8125 = .instr (.subVxVy 1 2) ∧ decode 0x8196 = .instr (.shrVx 1) ∧
    decode 0x8127 = .instr (.subnVxVy 1 2) ∧ decode 0x812E = .instr (.shlVx 1) ∧ decode 0x8008 = .nop ∧
    decode 0x812F = .nop := by decide

/-- DRW: x, y, n. -/
theorem test_decode_draw : decode 0xD125 = .instr (.drw 1 2 5) ∧ decode 0xDF0F = .instr (.drw 0xF 0 0xF) := by decide

/-- Family E: indices E and 1, bits 7..4 not examined. -/
theorem test_decode_familyE : decode 0xE19E = .instr (.skp 1) ∧ decode 0xE10E = .instr (.skp 1) ∧
    decode 0xE1A1 = .instr (.sknp 1) ∧ decode 0xE191 = .instr (.sknp 1) ∧ decode 0xE19F = .nop := by decide

/-- Family F: the nine values of w[7:0]; the rest is the no-op. -/
theorem test_decode_familyF : decode 0xF107 = .instr (.ldVxDt 1) ∧ decode 0xF20A = .instr (.ldVxK 2) ∧
    decode 0xF315 = .instr (.ldDtVx 3) ∧ decode 0xF418 = .instr (.ldStVx 4) ∧ decode 0xF51E = .instr (.addIVx 5) ∧
    decode 0xF629 = .instr (.ldFVx 6) ∧ decode 0xF733 = .instr (.ldBVx 7) ∧ decode 0xF855 = .instr (.ldMemVx 8) ∧
    decode 0xF965 = .instr (.ldVxMem 9) ∧ decode 0xF0FF = .nop ∧ decode 0xF5A5 = .nop := by decide

/-- A table word and bytes; a lone byte is rejected by name. -/
theorem test_decode_bytes : decodeTableWord 16 0xD125 = some (.drw 1 2 5) ∧ decodeTableWord 16 0x8008 = none ∧
    encodeBytes (.drw 1 2 5) = [0xD1, 0x25] := by decide
theorem test_decode_truncated : decodeBytes [0x12] = .error .truncated ∧ decodeBytes [] = .error .truncated := ⟨rfl, rfl⟩

/-! ### The words written out again by the encoder -/

theorem test_encode_words : encode (.drw 1 2 5) = 0xD125 ∧ encode (.skp 1) = 0xE19E ∧ encode (.sknp 1) = 0xE1A1 ∧
    encode (.shrVx 3) = 0x8336 ∧ encode (.ldMemVx 0xF) = 0xFF55 ∧ encode (.call 0xABC) = 0x2ABC ∧
    encode (.sneVxKk 1 0xFE) = 0x41FE := by decide

/-! ### Reset -/

theorem test_reset_memory_wf : State.reset.mem.wf := by decide
/-- The glyph of F, the last of the font (R53), and the byte past it. -/
theorem test_reset_font_end : State.reset.mem.read 0x9B = 0xF0 ∧ State.reset.mem.read 0x9F = 0x80 ∧
    State.reset.mem.read 0xA0 = 0 := by decide

/-! ### Control transfer and skips: vectors CF1-CF20 -/

/-- CF1: the popped entry keeps its value. -/
theorem test_ret_cf1 : gives (stepWord (((start.setPc 0x20C).setSp 1).setStack (start.stack.set 0 0x206)) 0x00EE)
    (fun t => t.pc == 0x206 && t.sp == 0 && t.stack[0] == 0x206) = true := by decide
/-- CF2: underflow, no decay. -/
theorem test_ret_cf2 : gives (stepWord ((start.setPc 0x20C).setDt 5) 0x00EE)
    (fun t => latched t .stackUnderflow 0x20C 0 && t.pc == 0x20C && t.dt == 5) = true := by decide
/-- CF3. -/
theorem test_jp_cf3 : gives (stepWord start 0x1345) (fun t => t.pc == 0x345) = true := by decide
/-- CF20: an odd target. -/
theorem test_jp_cf20 : gives (stepWord start 0x1201) (fun t => t.pc == 0x201 && t.fault.isNone) = true := by decide
/-- CF5. -/
theorem test_call_cf5 : gives (stepWord start 0x2400)
    (fun t => t.pc == 0x400 && t.sp == 1 && t.stack[0] == 0x202) = true := by decide
/-- CF6: overflow. -/
theorem test_call_cf6 : gives (stepWord (start.setSp 16) 0x2400)
    (fun t => latched t .stackOverflow 0x200 16 && t.stack[15] == 0 && t.sp == 16) = true := by decide
/-- CF7, CF8. -/
theorem test_se_cf7 : gives (stepWord (withRegs [(3, 0x07)]) 0x3307) (fun t => t.pc == 0x204) = true := by decide
theorem test_se_cf8 : gives (stepWord (withRegs [(3, 0x08)]) 0x3307) (fun t => t.pc == 0x202) = true := by decide
/-- CF9, CF10. -/
theorem test_sne_cf9 : gives (stepWord (withRegs [(3, 0x08)]) 0x4307) (fun t => t.pc == 0x204) = true := by decide
theorem test_sne_cf10 : gives (stepWord (withRegs [(3, 0x07)]) 0x4307) (fun t => t.pc == 0x202) = true := by decide
/-- CF12, and different registers. -/
theorem test_se_registers_cf12 : gives (stepWord (withRegs [(1, 0x33), (2, 0x33)]) 0x512F)
    (fun t => t.pc == 0x204) = true := by decide
theorem test_se_registers_differ : gives (stepWord (withRegs [(1, 0x33)]) 0x5120) (fun t => t.pc == 0x202) = true := by decide
/-- CF15, CF16. -/
theorem test_sne_registers_cf15 : gives (stepWord (withRegs [(1, 1), (2, 2)]) 0x9120)
    (fun t => t.pc == 0x204) = true := by decide
theorem test_sne_registers_cf16 : gives (stepWord (withRegs [(1, 9)]) 0x9110) (fun t => t.pc == 0x202) = true := by decide
/-- CF17, CF18. -/
theorem test_jpV0_cf17 : gives (stepWord (withRegs [(0, 0x10)]) 0xB300) (fun t => t.pc == 0x310) = true := by decide
theorem test_jpV0_cf18 : gives (stepWord (withRegs [(0, 0xFF)]) 0xBFFF)
    (fun t => t.pc == 0x10FE && t.fault.isNone) = true := by decide

/-! ### ALU: vectors A1-A30 -/

/-- A1. -/
theorem test_ld_a1 : gives (stepWord start 0x6A42) (fun t => t.getV 0xA == 0x42 && t.pc == 0x202) = true := by decide
/-- A2, A3: no flag. -/
theorem test_add_a2 : gives (stepWord (withRegs [(0xA, 0x02)]) 0x7AFF)
    (fun t => t.getV 0xA == 0x01 && t.getV vF == 0) = true := by decide
theorem test_add_a3 : gives (stepWord (withRegs [(vF, 0x01)]) 0x7FFF) (fun t => t.getV vF == 0) = true := by decide
/-- A4. -/
theorem test_ld_a4 : gives (stepWord (withRegs [(2, 0x33)]) 0x8120)
    (fun t => t.getV 1 == 0x33 && t.getV 2 == 0x33) = true := by decide
/-- A5: VF keeps its value. -/
theorem test_or_a5 : gives (stepWord (withRegs [(1, 0x0C), (2, 0x0A), (vF, 0x07)]) 0x8121)
    (fun t => t.getV 1 == 0x0E && t.getV vF == 0x07) = true := by decide
/-- A6, and the second row of E3. -/
theorem test_and_a6 : gives (stepWord (withRegs [(1, 0x0C), (2, 0x0A)]) 0x8122) (fun t => t.getV 1 == 0x08) = true := by decide
theorem test_and_e3 : gives (stepWord (withRegs [(1, 0xFF), (2, 0x0F)]) 0x8122) (fun t => t.getV 1 == 0x0F) = true := by decide
/-- A7, A8. -/
theorem test_xor_a7 : gives (stepWord (withRegs [(1, 0x0C), (2, 0x0A)]) 0x8123) (fun t => t.getV 1 == 0x06) = true := by decide
theorem test_xor_a8 : gives (stepWord (withRegs [(1, 0x5A)]) 0x8113) (fun t => t.getV 1 == 0x00) = true := by decide
/-- A12: the flag is written last. A14: y = F reads the old VF. -/
theorem test_add_a12 : gives (stepWord (withRegs [(vF, 0xFF), (1, 0x01)]) 0x8F14) (fun t => t.getV vF == 1) = true := by decide
theorem test_add_a14 : gives (stepWord (withRegs [(1, 0x01), (vF, 0xFF)]) 0x81F4)
    (fun t => t.getV 1 == 0 && t.getV vF == 1) = true := by decide
/-- A15, A16. -/
theorem test_sub_a15 : gives (stepWord (withRegs [(1, 0x05), (2, 0x07)]) 0x8125)
    (fun t => t.getV 1 == 0xFE && t.getV vF == 0) = true := by decide
theorem test_sub_a16 : gives (stepWord (withRegs [(1, 0x07), (2, 0x07)]) 0x8125)
    (fun t => t.getV 1 == 0 && t.getV vF == 1) = true := by decide
/-- A19, A20. -/
theorem test_shr_a19 : gives (stepWord (withRegs [(1, 0x05)]) 0x8116)
    (fun t => t.getV 1 == 0x02 && t.getV vF == 1) = true := by decide
theorem test_shr_a20 : gives (stepWord (withRegs [(1, 0x80), (9, 0xFF)]) 0x8196)
    (fun t => t.getV 1 == 0x40 && t.getV vF == 0) = true := by decide
/-- A22, A23. -/
theorem test_subn_a22 : gives (stepWord (withRegs [(1, 0x05), (2, 0x07)]) 0x8127)
    (fun t => t.getV 1 == 0x02 && t.getV vF == 1) = true := by decide
theorem test_subn_a23 : gives (stepWord (withRegs [(1, 0x07), (2, 0x05)]) 0x8127)
    (fun t => t.getV 1 == 0xFE && t.getV vF == 0) = true := by decide
/-- A25, A27. -/
theorem test_shl_a25 : gives (stepWord (withRegs [(1, 0x81)]) 0x811E)
    (fun t => t.getV 1 == 0x02 && t.getV vF == 1) = true := by decide
theorem test_shl_a27 : gives (stepWord (withRegs [(vF, 0x80)]) 0x8FFE) (fun t => t.getV vF == 1) = true := by decide
/-- A28, A30. -/
theorem test_rnd_a28 : gives (stepWord { start with inputs := [{ quiet with rnd := 0xA7 }] } 0xC20F)
    (fun t => t.getV 2 == 0x07) = true := by decide
theorem test_rnd_a30 : gives (stepWord { start with inputs := [{ quiet with rnd := 0x5C }] } 0xC2FF)
    (fun t => t.getV 2 == 0x5C) = true := by decide

/-! ### Index and memory: vectors M1-M20 -/

/-- M1. -/
theorem test_ldI_m1 : gives (stepWord start 0xA123) (fun t => t.i == 0x123) = true := by decide
/-- M2, M3. -/
theorem test_addI_m2 : gives (stepWord ((withRegs [(3, 0x05)]).setI 0xFFE) 0xF31E)
    (fun t => t.i == 0x1003 && t.getV vF == 0) = true := by decide
theorem test_addI_m3 : gives (stepWord ((withRegs [(3, 0x01)]).setI 0xFFFF) 0xF31E) (fun t => t.i == 0) = true := by decide
/-- M4, M6. -/
theorem test_ldF_m4 : gives (stepWord (withRegs [(0, 0x0A)]) 0xF029) (fun t => t.i == 0x082) = true := by decide
theorem test_ldF_m6 : gives (stepWord (withRegs [(0, 0xFF)]) 0xF029) (fun t => t.i == 0x54B) = true := by decide
/-- M9; M12. -/
theorem test_ldB_m9 : gives (stepWord ((withRegs [(0, 0x7B)]).setI 0x300) 0xF033)
    (fun t => t.mem.read 0x300 == 1 && t.mem.read 0x301 == 2 && t.mem.read 0x302 == 3) = true := by decide
theorem test_ldB_m12 : gives (stepWord ((withRegs [(0, 0x01)]).setI 0xFFE) 0xF033)
    (fun t => latched t .writeOutOfRange 0x200 0x1000 && t.mem.read 0xFFE == 0) = true := by decide
/-- M13; M14. -/
theorem test_ldMem_m13 : gives (stepWord ((withRegs [(0, 0x11), (1, 0x22), (2, 0x33)]).setI 0x300) 0xF155)
    (fun t => t.mem.read 0x300 == 0x11 && t.mem.read 0x301 == 0x22 && t.mem.read 0x302 == 0 && t.i == 0x300) = true := by
  decide
theorem test_ldMem_m14 : gives (stepWord ((withRegs [(0, 0x99)]).setI 0x60) 0xF055)
    (fun t => t.mem.read 0x60 == 0x99) = true := by decide
/-- M17; M20. -/
theorem test_ldVxMem_m17 : gives (stepWord (withBytes 0x300 [2, 5, 5, 9] (start.setI 0x300)) 0xF265)
    (fun t => t.getV 0 == 2 && t.getV 1 == 5 && t.getV 2 == 5 && t.getV 3 == 0 && t.i == 0x300) = true := by decide
theorem test_ldVxMem_m20 : gives (stepWord (start.setI 0xFFFF) 0xF065)
    (fun t => latched t .readOutOfRange 0x200 0xFFFF) = true := by decide

/-! ### Display: vectors D1-D13 and program P4 -/

/-- D1: from every pixel on. -/
theorem test_cls_d1 : gives (stepWord (start.setDisplay (Vector.replicate 32 (Vector.replicate 64 true))) 0x00E0)
    (fun t => decide (t.display = Display.blank)) = true := by decide
/-- P4 after its sixth step: glyph 5 at (62, 30), wrapping on both axes. -/
theorem test_drw_p4 : gives (stepWord ((withRegs [(1, 0x3E), (2, 0x1E)]).setI 0x69) 0xD125) (fun t => t.getV vF == 0 &&
    decide (t.display = pixelsOn ([(62, 30), (63, 30), (0, 30), (1, 30), (62, 31)] ++
      [(62, 0), (63, 0), (0, 0), (1, 0), (1, 1), (62, 2), (63, 2), (0, 2), (1, 2)]))) = true := by
  decide +kernel
/-- D9: a collision at (1, 0), none at (0, 0). -/
theorem test_drw_d9 : gives (stepWord (withBytes 0x300 [0xC0] ((start.setI 0x300).setDisplay (pixelsOn [(1, 0)]))) 0xD011)
    (fun t => decide (t.display = pixelsOn [(0, 0)]) && t.getV vF == 1) = true := by decide

/-! ### Timers and keypad: vectors T1-T18 -/

/-- T1, T5. -/
theorem test_skp_t1 : gives (stepWord { withRegs [(1, 7)] with inputs := [pressing [7]] } 0xE19E)
    (fun t => t.pc == 0x204) = true := by decide
theorem test_skp_t5 : gives (stepWord (withRegs [(1, 0x10)]) 0xE19E)
    (fun t => latched t .keyOutOfRange 0x200 0x10) = true := by decide
/-- T3, T4. -/
theorem test_sknp_t3 : gives (stepWord (withRegs [(1, 7)]) 0xE1A1) (fun t => t.pc == 0x204) = true := by decide
theorem test_sknp_t4 : gives (stepWord { withRegs [(1, 7)] with inputs := [pressing [7]] } 0xE1A1)
    (fun t => t.pc == 0x202) = true := by decide
/-- T10. -/
theorem test_ldVxDt_t10 : gives (stepWord (start.setDt 2) 0xF107) (fun t => t.getV 1 == 2 && t.dt == 1) = true := by decide
/-- T16, T17. -/
theorem test_ldVxK_t16 : gives (stepWord ((withRegs [(2, 0x55)]).setDt 3) 0xF20A)
    (fun t => t.pc == 0x200 && t.getV 2 == 0x55 && t.dt == 2) = true := by decide
theorem test_ldVxK_t17 : gives (stepWord { start with inputs := [pressing [3, 9]] } 0xF20A)
    (fun t => t.getV 2 == 3 && t.pc == 0x202) = true := by decide
/-- T12, T13. -/
theorem test_ldDt_t12 : gives (stepWord (withRegs [(0, 5)]) 0xF015) (fun t => t.dt == 4) = true := by decide
theorem test_ldDt_t13 : gives (stepWord (withRegs [(0, 1)]) 0xF015) (fun t => t.dt == 0) = true := by decide
/-- T14, T15. -/
theorem test_ldSt_t14 : gives (stepWord (withRegs [(0, 0x10)]) 0xF018) (fun t => t.st == 0x0F) = true := by decide
theorem test_ldSt_t15 : gives (stepWord (start.setSt 9) 0xF018) (fun t => t.st == 0) = true := by decide

/-! ### The step: vectors S1-S8, and the host's functions -/

/-- S1: the no-op advances PC and lets the timers decay. -/
theorem test_step_s1 : gives (stepWord ((start.setDt 2).setSt 1) 0x0123)
    (fun t => t.pc == 0x202 && t.dt == 1 && t.st == 0) = true := by decide
/-- S6: a fetch at 0xFFE. -/
theorem test_step_s6 : gives (stepWord (start.setPc 0xFFE) 0x1200) (fun t => t.pc == 0x200) = true := by decide
/-- S7: a fetch at 0xFFF. -/
theorem test_step_s7 : gives (step ((start.setPc 0xFFF).setDt 4))
    (fun t => latched t .fetchOutOfRange 0xFFF 0xFFF && t.dt == 4) = true := by decide
/-- S9: the first byte is bits 15..8. -/
theorem test_fetch_s9 : (withBytes 0x200 [0x6A, 0xFF] start).fetch = some 0x6AFF := by decide
/-- `withFetchWord` runs as the first instruction after reset, with no input listed. -/
theorem test_withFetchWord : gives (step (State.reset.withFetchWord 16 0x6A42)) (fun t => t.getV 0xA == 0x42) = true := by
  decide
/-- A loaded program stands at 0x200; a second load is refused. -/
theorem test_load_small : start.loadProgram [0x60, 0x0A] =
    .loaded { start with mem := [(0x200, 0x60), (0x201, 0x0A)], phase := .loaded } := by decide
/-- An on pixel and an off pixel as the host sees them, and the fault output's code (R301). -/
theorem test_outputs : ((start.setDisplay (pixelsOn [(3, 4)])).displayOutput 3 4) = 0xFFFFFFFF ∧
    start.displayOutput 3 4 = 0 ∧ (start.latchFault .keyOutOfRange 16).faultOutput = some (6, 0x200, 16) := by decide

/-- The reset display, pixel by pixel. -/
theorem start_pixels_off (px : Fin 64) (py : Fin 32) : start.display.pix px py = false := by
  show Display.pix (Vector.replicate 32 (Vector.replicate 64 false)) px py = false
  simp [Display.pix]

/-- A full display, pixel by pixel. -/
theorem full_pixels_on (px : Fin 64) (py : Fin 32) :
    Display.pix (Vector.replicate 32 (Vector.replicate 64 true)) px py = true := by
  simp [Display.pix]

/-! ### Witnesses: for every statement with hypotheses, states and operands that meet them, at the edges of each clause -/

/-- `start` with word `w` at PC. -/
def placed (w : Nat) (s : State := start) : State := s.withFetchWord 16 w

theorem witness_DecodeOfEncodeIsIdentity : (Instr.drw 0xF 0xF 0xF).wf = true ∧ (Instr.jp 0xFFF).wf = true ∧
    (Instr.rnd 0 0xFF).wf = true := by decide

theorem witness_IgnoredBitsDoNotMatter :
    (bits 0x0000 15 12 = bits 0x0FF0 15 12 ∧ bits 0x0000 15 12 = 0 ∧ bits 0x0000 3 0 = bits 0x0FF0 3 0) ∧
    (bits 0x512F 15 12 = bits 0x5120 15 12 ∧ bits 0x512F 15 12 = 5 ∧ bits 0x512F 11 4 = bits 0x5120 11 4) ∧
    (bits 0x912F 15 12 = bits 0x9120 15 12 ∧ bits 0x912F 15 12 = 9 ∧ bits 0x912F 11 4 = bits 0x9120 11 4) ∧
    (bits 0xE10E 15 12 = bits 0xE19E 15 12 ∧ bits 0xE10E 15 12 = 0xE ∧ bits 0xE10E 11 8 = bits 0xE19E 11 8 ∧
      bits 0xE10E 3 0 = bits 0xE19E 3 0) ∧
    (bits 0x8106 15 12 = bits 0x81F6 15 12 ∧ bits 0x8106 15 12 = 8 ∧ bits 0x8106 3 0 = 6 ∧
      bits 0x8106 11 8 = bits 0x81F6 11 8 ∧ bits 0x8106 3 0 = bits 0x81F6 3 0) ∧
    (bits 0x810E 15 12 = bits 0x81FE 15 12 ∧ bits 0x810E 15 12 = 8 ∧ bits 0x810E 3 0 = 0xE ∧
      bits 0x810E 11 8 = bits 0x81FE 11 8 ∧ bits 0x810E 3 0 = bits 0x81FE 3 0) := by decide

/-- One word of each of the four families of R91, the first and the last of family 8. -/
theorem witness_UnmappedWordsAreNoOps : (∀ w ∈ [0x0123, 0x8008, 0x812F, 0xE19F, 0xF0FF], Unmapped (BitVec.ofNat 16 w) ∧
    (placed w).fault = none ∧ (placed w).fetch = some (BitVec.ofNat 16 w)) := by
  unfold Unmapped
  decide

theorem witness_RetPopsReturnAddress : (bits 0x00EE 15 12 = 0 ∧ bits 0x00EE 3 0 = 0xE) ∧ start.sp.toNat = 0 ∧
    (∀ n ∈ [1, 16], 1 ≤ (start.setSp n).sp.toNat ∧ (start.setSp n).sp.toNat ≤ 16) ∧ 16 < (start.setSp 17).sp.toNat := by
  decide

theorem witness_JpSetsPc : bits 0x1FFF 15 12 = 1 ∧ nnnField 0x1FFF = 0xFFF ∧
    (start.setPc 0x202).pc.toNat = (0x200 : Addr).toNat + 2 ∧ start.fault = none := by decide

theorem witness_CallPushesReturnAddress : bits 0x2400 15 12 = 2 ∧ (start.setSp 16).sp.toNat = 16 ∧
    (∀ n ∈ [0, 15], (start.setSp n).sp.toNat < 16) ∧ 16 < (start.setSp 17).sp.toNat := by decide

theorem witness_SkipsOnImmediate : bits 0x3307 15 12 = 3 ∧ bits 0x4307 15 12 = 4 ∧
    ((withRegs [(3, 7)]).getV 3).toNat = (7 : Byte).toNat ∧ (start.getV 3).toNat ≠ (7 : Byte).toNat := by decide

theorem witness_SkipsOnRegisters : bits 0x5120 15 12 = 5 ∧ bits 0x9120 15 12 = 9 ∧
    (start.getV 1).toNat = (start.getV 2).toNat ∧
    ((withRegs [(2, 7)]).getV 1).toNat ≠ ((withRegs [(2, 7)]).getV 2).toNat := by decide

theorem witness_JpV0AddsV0 : bits 0xBFFF 15 12 = 0xB ∧ ∃ t, exec (.jpV0 0xFFF) (withRegs [(0, 0xFF)]) = .next t ∧
    t.pc.toNat > 0xFFE := ⟨by decide, _, rfl, by decide⟩

theorem witness_CallThenRetReturns : (start.setSp 15).sp.toNat < 16 ∧ ∃ t, exec (.call 0x400) (start.setSp 15) = .next t ∧
    (t.setPc 0x408).sp = t.sp ∧ (t.setPc 0x408).stack = t.stack := ⟨by decide, _, rfl, rfl, rfl⟩

theorem witness_LoadAndAddImmediate : bits 0x6A42 15 12 = 6 ∧ bits 0x7AFF 15 12 = 7 := by decide

theorem witness_CopyRegister : bits 0x8120 15 12 = 8 ∧ bits 0x8120 3 0 = 0 := by decide

/-- AND and XOR agree on two zeros and on nothing else: both sides of the last clause occur. -/
theorem witness_BitwiseLogic : bits 0x8121 15 12 = 8 ∧ bits 0x8121 3 0 = 1 ∧ bits 0x8122 3 0 = 2 ∧ bits 0x8123 3 0 = 3 ∧
    (start.getV 1 = 0 ∧ start.getV 2 = 0) ∧
    ¬ ((withRegs [(2, 1)]).getV 1 = 0 ∧ (withRegs [(2, 1)]).getV 2 = 0) := by decide

/-- x ≠ VF, with and without a carry. -/
theorem witness_AddSetsCarry : bits 0x8124 15 12 = 8 ∧ bits 0x8124 3 0 = 4 ∧ (1 : RegIdx) ≠ vF ∧
    ((withRegs [(1, 0xFF), (2, 1)]).getV 1).toNat + ((withRegs [(1, 0xFF), (2, 1)]).getV 2).toNat > 255 ∧
    ¬ ((withRegs [(1, 0xFF)]).getV 1).toNat + ((withRegs [(1, 0xFF)]).getV 2).toNat > 255 := by decide

/-- x ≠ VF; a borrow, and equal operands. -/
theorem witness_SubtractSetsNoBorrow : bits 0x8125 15 12 = 8 ∧ bits 0x8125 3 0 = 5 ∧ bits 0x8127 3 0 = 7 ∧
    (1 : RegIdx) ≠ vF ∧ ¬ ((withRegs [(2, 1)]).getV 1).toNat ≥ ((withRegs [(2, 1)]).getV 2).toNat ∧
    (start.getV 1).toNat ≥ (start.getV 2).toNat := by decide

/-- x ≠ VF; each shifted-out bit as 1 and as 0. -/
theorem witness_ShiftsByOne : bits 0x8126 15 12 = 8 ∧ bits 0x8126 3 0 = 6 ∧ bits 0x812E 3 0 = 0xE ∧ (1 : RegIdx) ≠ vF ∧
    ((withRegs [(1, 0x81)]).getV 1).toNat % 2 = 1 ∧ ((withRegs [(1, 0x81)]).getV 1).toNat ≥ 128 ∧
    ¬ ((withRegs [(1, 0x40)]).getV 1).toNat % 2 = 1 ∧ ¬ ((withRegs [(1, 0x40)]).getV 1).toNat ≥ 128 := by decide

theorem witness_RandomByteIsMasked : bits 0xC200 15 12 = 0xC ∧ start.inputs = quiet :: [quiet] ∧
    State.reset.inputs = [] ∧ kkField 0xC200 = 0 ∧ kkField 0xC2FF = 0xFF := by decide

theorem witness_IndexLoadAndAdd : bits 0xAFFF 15 12 = 0xA ∧ bits 0xF31E 15 12 = 0xF ∧ bits 0xF31E 7 0 = 0x1E := by decide

theorem witness_IndexPointsAtGlyph : bits 0xF029 15 12 = 0xF ∧ bits 0xF029 7 0 = 0x29 := by decide

theorem witness_StoreDecimalDigits : bits 0xF033 15 12 = 0xF ∧ bits 0xF033 7 0 = 0x33 ∧
    (start.setI 0xFFD).i.toNat + 2 ≤ 0xFFF ∧ (start.setI 0xFFE).i.toNat + 2 > 0xFFF := by decide

/-- Both block transfers, x = 0xF and x = 0 at the last address in range and one past it. -/
theorem witness_StoreRegisters_LoadRegisters : bits 0xFF55 15 12 = 0xF ∧ bits 0xFF55 7 0 = 0x55 ∧ bits 0xFF65 7 0 = 0x65 ∧
    (start.setI 0xFF0).i.toNat + (0xF : RegIdx).val ≤ 0xFFF ∧ (start.setI 0xFF1).i.toNat + (0xF : RegIdx).val > 0xFFF ∧
    (start.setI 0xFFF).i.toNat + (0 : RegIdx).val ≤ 0xFFF ∧ (start.setI 0x1000).i.toNat + (0 : RegIdx).val > 0xFFF := by
  decide

/-- In between, every register is cleared. -/
theorem witness_StoreThenLoadRestoresRegisters : ∃ t, exec (.ldMemVx 0xF) ((withRegs [(1, 5)]).setI 0xFF0) = .next t ∧
    ((withRegs [(1, 5)]).setI 0xFF0).fault = none ∧ t.fault = none ∧ (t.setVs (Vector.replicate 16 0)).mem = t.mem ∧
    (t.setVs (Vector.replicate 16 0)).i = t.i := ⟨_, rfl, rfl, rfl, rfl, rfl⟩

theorem witness_ClearTurnsAllPixelsOff : bits 0x0FF0 15 12 = 0 ∧ bits 0x0FF0 3 0 = 0 := by decide

/-- The range condition with n = 0 and with n > 0 at its edge; a covered pixel, wrapped on both axes; one not covered. -/
theorem witness_DrawTogglesCoveredPixels : bits 0xD122 15 12 = 0xD ∧
    (((0 : Fin 16).val = 0 ∨ (start.setI 0xFFFF).i.toNat + (0 : Fin 16).val - 1 ≤ 0xFFF)) ∧
    ((2 : Fin 16).val = 0 ∨ (start.setI 0xFFE).i.toNat + (2 : Fin 16).val - 1 ≤ 0xFFF) ∧
    SpriteCovers (withBytes 0xFFE [0xFF, 0xFF] ((withRegs [(1, 63), (2, 31)]).setI 0xFFE)) 1 2 2 0 0 ∧
    (∀ px py, ¬ SpriteCovers (start.setI 0xFFE) 1 2 2 px py) :=
  ⟨by decide, by decide, by decide, ⟨1, 1, by decide, by decide, by decide, by decide, by decide⟩, fun _ _ h => by
    obtain ⟨r, c, hr, hc, hb, -⟩ := h
    revert hb
    revert c
    revert r
    decide⟩

/-- The flag clauses: a covered pixel that was on, and a display where none was. -/
theorem witness_DrawTogglesCoveredPixels_flag : (∃ px py, SpriteCovers (withBytes 0x300 [0xC0] ((start.setI 0x300).setDisplay
      (pixelsOn [(1, 0)]))) 0 1 1 px py ∧ (pixelsOn [(1, 0)]).pix px py = true) ∧
    ∀ px py, start.display.pix px py = false :=
  ⟨⟨1, 0, ⟨0, 1, by decide, by decide, by decide, by decide, by decide⟩, by decide⟩, start_pixels_off⟩

theorem witness_DrawOutOfRangeFaults : (3 : Fin 16).val > 0 ∧ (start.setI 0xFFE).i.toNat + (3 : Fin 16).val - 1 > 0xFFF ∧
    (1 : Fin 16).val > 0 ∧ (start.setI 0x1000).i.toNat + (1 : Fin 16).val - 1 > 0xFFF := by decide

/-- A cleared screen and a covered pixel; and a full screen, where every covered pixel was on. -/
theorem witness_DrawTwiceRestoresDisplay : (1 : RegIdx) ≠ vF ∧ (2 : RegIdx) ≠ vF ∧
    ((5 : Fin 16).val = 0 ∨ (start.setI 0x50).i.toNat + (5 : Fin 16).val - 1 ≤ 0xFFF) ∧
    (∃ px py, SpriteCovers (start.setI 0x50) 1 2 5 px py ∧ (start.setI 0x50).display.pix px py = false) ∧
    (∀ px py, (start.setI 0x50).display.pix px py = false) ∧
    (∃ r c : Nat, r < (5 : Fin 16).val ∧ c < 8 ∧
      ((start.setI 0x50).mem.read ((start.setI 0x50).i.toNat + r)).getLsbD c = true) ∧
    (∀ px py, Display.pix (Vector.replicate 32 (Vector.replicate 64 true)) px py = true) :=
  ⟨by decide, by decide, by decide, ⟨0, 0, ⟨0, 0, by decide, by decide, by decide, by decide, by decide⟩, by decide⟩,
    start_pixels_off, ⟨0, 7, by decide, by decide, by decide⟩, full_pixels_on⟩

theorem witness_DisplayChangesOnlyByClsAndDrw : (∃ t, step (placed 0x00E0 (start.setDisplay (pixelsOn [(3, 4)]))) = .next t ∧
    t.display.pix 3 4 ≠ (placed 0x00E0 (start.setDisplay (pixelsOn [(3, 4)]))).display.pix 3 4) ∧
    (start.setDisplay (pixelsOn [(3, 4)])).display.pix 3 4 = true ∧ start.display.pix 3 4 = false :=
  ⟨⟨_, rfl, by decide⟩, by decide, by decide⟩

/-- The last register value that names a key, the first that does not, and a key in both positions. -/
theorem witness_SkipsOnKey : bits 0xE10E 15 12 = 0xE ∧ bits 0xE10E 3 0 = 0xE ∧ bits 0xE191 3 0 = 1 ∧
    ((withRegs [(1, 0x10)]).getV 1).toNat > 0xF ∧ ((withRegs [(1, 0xF)]).getV 1).toNat = (0xF : Fin 16).val ∧
    ({ start with inputs := [pressing [15]] } : State).input.keys[(0xF : Fin 16)] = true ∧
    start.input.keys[(0xF : Fin 16)] = false := by decide

theorem witness_TimerTransfers : bits 0xF107 15 12 = 0xF ∧ bits 0xF107 7 0 = 0x07 ∧ bits 0xF015 7 0 = 0x15 ∧
    bits 0xF018 7 0 = 0x18 ∧ (placed 0xF107).fault = none ∧ (placed 0xF107).fetch = some 0xF107 ∧
    decode 0xF107 = .instr (.ldVxDt 1) ∧ (placed 0xF015).fetch = some 0xF015 ∧ decode 0xF015 = .instr (.ldDtVx 0) ∧
    (placed 0xF018).fetch = some 0xF018 ∧ decode 0xF018 = .instr (.ldStVx 0) := by decide

/-- Keys 0 and 15 as the least pressed one, and no key. -/
theorem witness_WaitForKey : bits 0xF20A 15 12 = 0xF ∧ bits 0xF20A 7 0 = 0x0A ∧
    (∀ k ∈ [(0 : Fin 16), 15], ({ start with inputs := [pressing [k.val]] } : State).input.keys[k] = true ∧
      ∀ j : Fin 16, j < k → ({ start with inputs := [pressing [k.val]] } : State).input.keys[j] = false) ∧
    noKey start.input := by
  unfold noKey
  decide

theorem witness_BusyWaitKeepsPcAndDecaysTimers : (placed 0xF20A).fault = none ∧ (placed 0xF20A).fetch = some 0xF20A ∧
    decode 0xF20A = .instr (.ldVxK 2) ∧ 2 ≤ (placed 0xF20A).inputs.length ∧
    ∀ inp ∈ (placed 0xF20A).inputs.take 2, noKey inp := by
  unfold noKey
  decide

/-- At the last PC a fetch can have. -/
theorem witness_StepRunsTheDecodedInstruction : (start.setPc 0xFFE).fault = none ∧ (start.setPc 0xFFE).pc.toNat ≤ 0xFFE ∧
    Instr.cls.wf = true ∧ decodeBytes [(start.setPc 0xFFE).mem.read (start.setPc 0xFFE).pc.toNat,
      (start.setPc 0xFFE).mem.read ((start.setPc 0xFFE).pc.toNat + 1)] = .ok (.instr .cls, []) ∧
    ((start.setPc 0xFFE).latchFault .stackOverflow 16).fault ≠ none :=
  ⟨by decide, by decide, by decide, rfl, by decide⟩

theorem witness_FetchOutOfRangeFaults : (start.setPc 0xFFF).fault = none ∧ (start.setPc 0xFFF).pc.toNat > 0xFFE := by decide

theorem witness_TimersDecayEachStep : (placed 0x8008).fault = none ∧ (placed 0x8008).fetch = some 0x8008 ∧
    (∃ t, step (placed 0x8008) = .next t ∧ t.fault = none) ∧ (∀ x, decode 0x8008 ≠ .instr (.ldDtVx x)) ∧
    ∀ x, decode 0x8008 ≠ .instr (.ldStVx x) := ⟨by decide, by decide, ⟨_, rfl, rfl⟩, by decide, by decide⟩

/-- For each cause of the table a state that has it, and one that has none. -/
theorem witness_StepFaultsExactlyByTheTable : (placed 0x6A42).fault = none ∧ (placed 0x6A42).sp.toNat ≤ 16 ∧
    ruleFault (placed 0x6A42) = none ∧ ruleFault (placed 0x2400 (start.setSp 16)) = some (.stackOverflow, 16) ∧
    ruleFault (placed 0x00EE) = some (.stackUnderflow, 0) ∧
    ruleFault (start.setPc 0xFFF) = some (.fetchOutOfRange, 0xFFF) ∧
    ruleFault (placed 0xD123 (start.setI 0xFFE)) = some (.readOutOfRange, 0x1000) ∧
    ruleFault (placed 0xFF65 (start.setI 0xFF1)) = some (.readOutOfRange, 0x1000) ∧
    ruleFault (placed 0xF055 (start.setI 0xFFFF)) = some (.writeOutOfRange, 0xFFFF) ∧
    ruleFault (placed 0xF033 (start.setI 0xFFE)) = some (.writeOutOfRange, 0x1000) ∧
    ruleFault (placed 0xE19E (withRegs [(1, 0x10)])) = some (.keyOutOfRange, 0x10) ∧
    ruleFault (placed 0xE1A1 (withRegs [(1, 0xFF)])) = some (.keyOutOfRange, 0xFF) := by decide

theorem witness_FaultingStepCommitsNothing : (placed 0x00EE).fault = none ∧
    ∃ t, step (placed 0x00EE) = .next t ∧ t.fault = some ⟨.stackUnderflow, 0x200, 0⟩ := ⟨by decide, _, rfl, rfl⟩

theorem witness_HaltedCoreStaysHalted : (start.latchFault .stackUnderflow 0).Halted := rfl

theorem witness_SelfJumpMakesNoProgress : (placed 0x1200).fault = none ∧ (placed 0x1200).fetch = some 0x1200 ∧
    decode 0x1200 = .instr (.jp 0x200) ∧ (placed 0x1200).pc.toNat = (0x200 : Addr).toNat := by decide

theorem witness_EveryInstructionKeepsItsFrame : ∃ t, exec (.ldBVx 0) (start.setI 0xFFD) = .next t ∧
    t.fault = (start.setI 0xFFD).fault ∧ (start.setI 0xFFD).fault = none := ⟨_, rfl, rfl, rfl⟩

/-- A byte that an instruction changes; a memory that differs outside the byte read; two memories that agree at PC. -/
theorem witness_MemoryIsReachedOnlyAsListed : (∃ t, exec (.ldMemVx 0) ((withRegs [(0, 9)]).setI 0xFFF) = .next t ∧
      t.mem.read 0xFFF ≠ ((withRegs [(0, 9)]).setI 0xFFF).mem.read 0xFFF) ∧
    (∀ a, readsByte (start.setI 0x300) (.ldVxMem 0) a →
      Memory.read [(0x301, 7)] a = (start.setI 0x300).mem.read a) ∧
    Memory.read [(0x202, 7)] start.pc.toNat = start.mem.read start.pc.toNat ∧
    Memory.read [(0x202, 7)] (start.pc.toNat + 1) = start.mem.read (start.pc.toNat + 1) :=
  ⟨⟨_, rfl, by decide⟩, fun a h => by
    have ha : a = 0x300 := Nat.le_antisymm h.2 h.1
    subst ha
    decide, by decide, by decide⟩

theorem witness_InputsReachOnlyTheirReaders : ¬ usesInput (.drw 1 2 5) ∧ ¬ usesInput (.ldVxDt 1) := ⟨id, id⟩

theorem witness_MemoryReadAfterWrite : Memory.wf [(0x200, 1)] ∧ (0xFFF : Nat) ≤ 0xFFF := by decide

theorem witness_CanonicalMemoriesAreEqual : Memory.wf [(0x200, 1), (0xFFF, 2)] ∧
    ∀ a, Memory.read (Memory.write (Memory.write [] 0xFFF 2) 0x200 1) a = Memory.read [(0x200, 1), (0xFFF, 2)] a ∧
      (Memory.write (Memory.write [] 0xFFF 2) 0x200 1).wf := ⟨by decide, fun _ => ⟨rfl, by decide⟩⟩

/-- LD [I],VF and LD B,V0 at their last I in range, and over their own bytes; at 0xFFC the next word is the last that can
be fetched, at 0xFFE none can. -/
theorem witness_StoreIsSeenByNextFetch : (∀ p ∈ [(0x200, 0xFF0), (0x202, 0x200), (0xFFC, 0xFF0), (0xFFE, 0xFF0)],
      ∀ s ∈ [placed 0xFF55 ((start.setPc (BitVec.ofNat 16 p.1)).setI (BitVec.ofNat 16 p.2))],
      s.fault = none ∧ s.fetch = some 0xFF55 ∧ decode 0xFF55 = .instr (.ldMemVx 0xF) ∧
      s.i.toNat + (0xF : RegIdx).val ≤ 0xFFF) ∧
    ∀ p ∈ [(0x200, 0xFFD), (0x200, 0x200), (0xFFC, 0xFFD)],
      ∀ s ∈ [placed 0xF033 ((start.setPc (BitVec.ofNat 16 p.1)).setI (BitVec.ofNat 16 p.2))],
      s.fault = none ∧ s.fetch = some 0xF033 ∧ decode 0xF033 = .instr (.ldBVx 0) ∧ s.i.toNat + 2 ≤ 0xFFF := by decide

theorem witness_DelayReadAfterWriteIsOneLess : ∀ s ∈ [withBytes 0x202 [0xF1, 0x07] (placed 0xF015 (withRegs [(0, 1)]))],
    s.fault = none ∧ s.fetch = some 0xF015 ∧ decode 0xF015 = .instr (.ldDtVx 0) ∧ (s.addPc 2).fetch = some 0xF107 ∧
    decode 0xF107 = .instr (.ldVxDt 1) ∧ (s.getV 0).toNat > 0 := by decide

/-- The longest program that loads, one byte more, and a step before a load. -/
theorem witness_LoadProgramCopiesOrFails : start.phase = .initialized ∧ start.fault = none ∧
    (List.replicate 3584 (0x12 : Byte)).length ≤ 3584 ∧ (List.replicate 3585 (0x12 : Byte)).length > 3584 ∧
    (∃ t, step start = .next t) ∧ ([] : List Byte).length ≤ 3584 := by
  rw [List.length_replicate, List.length_replicate]
  exact ⟨rfl, rfl, Nat.le_refl _, by decide, ⟨_, rfl⟩, by decide⟩

/-- One word of each shape of handler: the no-op, each jump, register skips, SKP and SKNP with their key up and down, LD Vx,K
with no key and with one, and a plain instruction. -/
theorem witness_PcAdvancesBeforeDispatch : (∀ w ∈ [0x8008, 0x1345, 0x2400, 0x00EE, 0xB300, 0x3000, 0x4000, 0x5120, 0x9120,
      0xE19E, 0xE1A1, 0xF20A, 0x6A42], ∀ keys ∈ [quiet, pressing [0]],
      ∀ s ∈ [placed w (({ start with inputs := [keys] } : State).setSp 1)],
      s.fault = none ∧ s.fetch = some (BitVec.ofNat 16 w) ∧ gives (step s) (fun t => t.fault.isNone) = true) ∧
    noKey quiet ∧ ¬ noKey (pressing [0]) := by
  unfold noKey
  decide

theorem witness_OneHandlerRunsPerStep : (placed 0x6A42).fault = none ∧ (placed 0x6A42).fetch = some 0x6A42 ∧
    (∃ u, Runs ((placed 0x6A42).addPc 2) u (decode 0x6A42)) ∧ (placed 0x8008).fetch = some 0x8008 ∧
    ∃ u, Runs ((placed 0x8008).addPc 2) u (decode 0x8008) := ⟨by decide, by decide, ⟨_, rfl⟩, by decide, _, rfl⟩

theorem witness_DispatchIndexesTheTables : (bits 0x1345 15 12 = bits 0x1FFF 15 12 ∧ bits 0x1345 15 12 ∉ [0x0, 0x8, 0xE, 0xF]) ∧
    (bits 0xE19E 15 12 = bits 0xE20E 15 12 ∧ bits 0xE19E 15 12 ∈ [0x0, 0x8, 0xE] ∧ bits 0xE19E 3 0 = bits 0xE20E 3 0) ∧
    bits 0xF107 15 12 = bits 0xFF07 15 12 ∧ bits 0xF107 15 12 = 0xF ∧ bits 0xF107 7 0 = bits 0xFF07 7 0 := by decide

/-- A latch for each cause, and none. -/
theorem witness_OutputsReportTimerAndFault : start.fault = none ∧ ∀ c ∈ [Fault.stackOverflow, .stackUnderflow,
    .fetchOutOfRange, .readOutOfRange, .writeOutOfRange, .keyOutOfRange],
    (start.latchFault c 16).fault = some ⟨c, 0x200, 16⟩ := by decide

/-- A state with listed memory, a full stack and the greatest PC of a run; it is no reset state. -/
def busy : State := withBytes 0x200 [0x22, 0x00] ((((withRegs [(vF, 1)]).setPc 0x10FE).setSp 16).setStack
  (Vector.replicate 16 0x202))

theorem busy_inv : busy.Inv where
  memory := by decide
  stackPointer := by decide
  returnAddress := by decide
  programCounter := by decide
  latch := fun _ h => nomatch h

/-- The addresses at the edges of the font. -/
theorem witness_ResetState : (0x4F < 0x50 ∨ 0x9F < 0x4F) ∧ (0xA0 < 0x50 ∨ 0x9F < 0xA0) ∧ 79 < 80 := by decide

theorem witness_ResetAndLoadMeetInvariant : start.Inv ∧ ∃ t, start.loadProgram [0x12, 0x00] = .loaded t :=
  ⟨⟨by decide, by decide, by decide, by decide, fun _ h => nomatch h⟩, _, rfl⟩

theorem witness_EveryStepKeepsInvariant : busy.Inv ∧ (∃ t, step busy = .next t ∧ t.fault.isSome = true) ∧
    (busy.setPc 0x200).Inv ∧ ∃ t, step (busy.setPc 0x200) = .next t ∧ t.fault.isSome = true :=
  ⟨busy_inv, ⟨_, rfl, rfl⟩, ⟨by decide, by decide, by decide, by decide, fun _ h => nomatch h⟩, _, rfl, rfl⟩

theorem witness_RunsNeverStopOtherwise : busy.Inv := busy_inv

end Sys2Proof.Tests
end

section
/-! The decoder's two-level dispatch (spec/30_encoding.md R83): each table's choice of handler, its operands forgotten,
depends on the index of that table alone. -/

open Sys2Proof Sys2Proof.Statements

namespace Sys2Proof.Proofs

variable {w w' : Word}

/-! The primary table hands the families 0, 8, E and F to their secondary tables (R84). -/

theorem decode_of_opField_zero (h : opField w = 0x0) : decode w = decodeFamily0 w := by simp [decode, h]

theorem decode_of_opField_eight (h : opField w = 0x8) : decode w = decodeFamily8 w := by simp [decode, h]

theorem decode_of_opField_fourteen (h : opField w = 0xE) : decode w = decodeFamilyE w := by simp [decode, h]

theorem decode_of_opField_fifteen (h : opField w = 0xF) : decode w = decodeFamilyF w := by simp [decode, h]

/-! Each secondary table chooses the rule by its index alone (R85-R88): with the index of both words replaced by one
number, the two words reach the same arm. -/

theorem ruleOf_decodeFamily0_congr (h : bits w 3 0 = bits w' 3 0) :
    ruleOf (decodeFamily0 w) = ruleOf (decodeFamily0 w') := by
  unfold decodeFamily0
  rw [h]

theorem ruleOf_decodeFamily8_congr (h : bits w 3 0 = bits w' 3 0) :
    ruleOf (decodeFamily8 w) = ruleOf (decodeFamily8 w') := by
  unfold decodeFamily8
  rw [h]
  split <;> rfl

theorem ruleOf_decodeFamilyE_congr (h : bits w 3 0 = bits w' 3 0) :
    ruleOf (decodeFamilyE w) = ruleOf (decodeFamilyE w') := by
  unfold decodeFamilyE
  rw [h]
  split <;> rfl

theorem ruleOf_decodeFamilyF_congr (h : bits w 7 0 = bits w' 7 0) :
    ruleOf (decodeFamilyF w) = ruleOf (decodeFamilyF w') := by
  unfold decodeFamilyF
  rw [h]
  split <;> rfl

/-- Outside the four families with a secondary table the primary table names the rule itself (R84); the decoder's last arm
stands for 0xF, since the index has four bits. -/
theorem ruleOf_decode_congr_of_primary (h : opField w = opField w') (hw : opField w ∉ [0x0, 0x8, 0xE, 0xF]) :
    ruleOf (decode w) = ruleOf (decode w') := by
  have hop : opField w' < 16 := Nat.mod_lt _ (by decide)
  unfold decode
  rw [h] at hw ⊢
  split
  case h_1 h0 | h_9 h0 | h_15 h0 => exact absurd hw (by simp [h0])
  case h_16 =>
    have hF : opField w' = 0xF := by simp only [imp_false] at *; omega
    exact absurd hw (by simp [hF])
  all_goals rfl

/-- In a family whose secondary table is indexed by the bottom nibble, that nibble chooses the rule (R83). -/
theorem ruleOf_decode_congr_of_nibble (h : opField w = opField w') (hw : opField w ∈ [0x0, 0x8, 0xE])
    (hn : bits w 3 0 = bits w' 3 0) : ruleOf (decode w) = ruleOf (decode w') := by
  simp only [List.mem_cons, List.not_mem_nil, or_false] at hw
  obtain h0 | h8 | hE := hw
  · rw [decode_of_opField_zero h0, decode_of_opField_zero (h ▸ h0), ruleOf_decodeFamily0_congr hn]
  · rw [decode_of_opField_eight h8, decode_of_opField_eight (h ▸ h8), ruleOf_decodeFamily8_congr hn]
  · rw [decode_of_opField_fourteen hE, decode_of_opField_fourteen (h ▸ hE), ruleOf_decodeFamilyE_congr hn]

/-- In family F the bottom byte chooses the rule (R83). -/
theorem ruleOf_decode_congr_of_byte (h : opField w = opField w') (hw : opField w = 0xF)
    (hb : bits w 7 0 = bits w' 7 0) : ruleOf (decode w) = ruleOf (decode w') := by
  rw [decode_of_opField_fifteen hw, decode_of_opField_fifteen (h ▸ hw), ruleOf_decodeFamilyF_congr hb]

/-- Settles O57, by one lemma for each way a word reaches its rule: the primary table, a nibble, the byte. -/
theorem dispatchIndexesTheTables : Obligations.DispatchIndexesTheTables := fun _ _ h =>
  ⟨ruleOf_decode_congr_of_primary h, ruleOf_decode_congr_of_nibble h, ruleOf_decode_congr_of_byte h⟩

end Sys2Proof.Proofs
end

section
/-! The cycle (spec/46_cycle_driver.md R272, R273): a step gives what its one handler gives on the advanced state, and what
that handler does to PC. -/

open Sys2Proof Sys2Proof.Machine Sys2Proof.Statements

namespace Sys2Proof.Proofs

variable {s u : State}

/-! ### A step is its handler, then the end of the cycle -/

theorem runHandler_eq_next_iff (h : Handler) : runHandler h s = .next u ↔ Runs s u h := by
  cases h with
  | instr i => rfl
  | nop => exact ⟨fun e => (Host.Outcome.next.inj e).symm, fun e => congrArg Host.Outcome.next e.symm⟩

theorem step_of_runs {w : Word} (hs : s.fault = none) (hw : s.fetch = some w) (h : Runs (s.addPc 2) u (decode w)) :
    step s = .next u.endCycle := by
  have hrun : runHandler (decode w) s.advance = .next u := (runHandler_eq_next_iff _).2 h
  rw [step_runs s w hs hw, hrun]
  rfl

theorem endCycle_frame (u : State) : OnlyChanges (fun p => p = .delay ∨ p = .sound ∨ p = .session) u u.endCycle := by
  intro p hp
  cases p
  case delay | sound | session => simp at hp
  all_goals simp [Part.Same]

/-- Settles O56: the step answers the handler's state after the end of the cycle, which touches the timers and the model's
own fields alone. -/
theorem oneHandlerRunsPerStep : Obligations.OneHandlerRunsPerStep := fun _ u _ hs hw h =>
  ⟨u.endCycle, step_of_runs hs hw h, endCycle_frame u⟩

/-! ### What an instruction that raises no fault does to PC -/

/-- A raised fault is latched, so a case lemma whose first case raises one leaves only the rest for a state without it. -/
theorem not_raised {o : Host.Outcome State Fault Refusal} {c : Fault} {n : Nat} {p q : Prop}
    (hcases : p ∧ o = raise c n s ∨ q) (h : o = .next u) (hu : u.fault = none) : q := by
  obtain ⟨_, e⟩ | hq := hcases
  · obtain rfl := Host.Outcome.next.inj (e.symm.trans h)
    exact absurd hu (by simp)
  · exact hq

/-- An instruction without PC among the pieces it writes leaves PC where the advance put it. -/
theorem exec_pc_of_not_writes {i : Instr} (h : exec i s = .next u) (hu : u.fault = none) (hw : ¬ writes s i .pc) :
    u.pc = s.pc := by
  cases i
  case jp | jpV0 | seVxKk | sneVxKk | seVxVy | sneVxVy | skp | sknp => exact absurd rfl hw
  case ret | ldVxK => exact absurd (.inr rfl) hw
  case call => exact absurd (.inl rfl) hw
  case drw x y n =>
    obtain ⟨_, _, e⟩ := not_raised (execDrw_cases x y n s) h hu
    obtain rfl := Host.Outcome.next.inj (e.symm.trans h)
    exact setVF_pc _ _
  case ldBVx x =>
    obtain ⟨_, e⟩ := not_raised (execLdBVx_cases x s) h hu
    obtain rfl := Host.Outcome.next.inj (e.symm.trans h)
    exact setMem_pc _ _
  case ldMemVx x =>
    obtain ⟨_, e⟩ := not_raised (execLdMemVx_cases x s) h hu
    obtain rfl := Host.Outcome.next.inj (e.symm.trans h)
    exact setMem_pc _ _
  case ldVxMem x =>
    obtain ⟨_, e⟩ := not_raised (execLdVxMem_cases x s) h hu
    obtain rfl := Host.Outcome.next.inj (e.symm.trans h)
    exact setVs_pc _ _
  all_goals
    obtain rfl := Host.Outcome.next.inj h
    rfl

/-! Where SP is such that CALL or RET completes, it does so whatever PC is, since no check of theirs looks at PC. -/

theorem overwrites_call (nnn : Addr) (hsp : s.sp.toNat < 16) : Overwrites (.call nnn) s (addrOperand nnn) := by
  intro a
  obtain ⟨hfull, _⟩ | ⟨_, e⟩ | ⟨hill, _⟩ := execCall_cases nnn (s.setPc a)
  · exact absurd hfull (Nat.ne_of_lt hsp)
  · exact ⟨_, e, rfl⟩
  · exact absurd hill (Nat.lt_asymm hsp)

theorem overwrites_ret (hlo : 1 ≤ s.sp.toNat) (hhi : s.sp.toNat ≤ 16) :
    Overwrites .ret s s.stack[s.sp.toNat - 1] := by
  intro a
  obtain ⟨hempty, _⟩ | ⟨_, _, e⟩ | ⟨hill, _⟩ := execRet_cases (s.setPc a)
  · exact absurd hempty (Nat.ne_of_gt hlo)
  · exact ⟨_, e, rfl⟩
  · exact absurd hill (Nat.not_lt.2 hhi)

theorem pcAfterStep_ret (h : exec .ret s.advance = .next u) (hu : u.fault = none) : pcAfterStep s u (.instr .ret) := by
  obtain ⟨⟨hlo, hhi⟩, _, e⟩ | ⟨_, e⟩ := not_raised (execRet_cases s.advance) h hu
  · obtain rfl := Host.Outcome.next.inj (e.symm.trans h)
    exact overwrites_ret hlo hhi
  · cases e.symm.trans h

theorem pcAfterStep_call {nnn : Addr} (h : exec (.call nnn) s.advance = .next u) (hu : u.fault = none) :
    pcAfterStep s u (.instr (.call nnn)) := by
  obtain ⟨hsp, e⟩ | ⟨_, e⟩ := not_raised (execCall_cases nnn s.advance) h hu
  · obtain rfl := Host.Outcome.next.inj (e.symm.trans h)
    exact ⟨overwrites_call nnn hsp, fun j hj => by simp [hj]⟩
  · cases e.symm.trans h

theorem skipIf_not_pc (s : State) (b : Bool) : (s.skipIf (!b)).pc = if b then s.pc else s.pc + 2 := by
  cases b <;> rfl

theorem pcAfterStep_skp {x : RegIdx} (h : exec (.skp x) s.advance = .next u) (hu : u.fault = none) :
    pcAfterStep s u (.instr (.skp x)) := by
  obtain ⟨hx, e⟩ := not_raised (execSkp_cases x s.advance) h hu
  obtain rfl := Host.Outcome.next.inj (e.symm.trans h)
  exact ⟨⟨_, hx⟩, rfl, skipIf_pc _ _⟩

theorem pcAfterStep_sknp {x : RegIdx} (h : exec (.sknp x) s.advance = .next u) (hu : u.fault = none) :
    pcAfterStep s u (.instr (.sknp x)) := by
  obtain ⟨hx, e⟩ := not_raised (execSknp_cases x s.advance) h hu
  obtain rfl := Host.Outcome.next.inj (e.symm.trans h)
  exact ⟨⟨_, hx⟩, rfl, skipIf_not_pc _ _⟩

theorem leastPressed_eq_none_iff (inp : StepInput) : leastPressed inp.keys = none ↔ noKey inp := by
  simp [leastPressed, noKey]

theorem pcAfterStep_ldVxK {x : RegIdx} (h : exec (.ldVxK x) s.advance = .next u) :
    pcAfterStep s u (.instr (.ldVxK x)) := by
  unfold pcAfterStep
  rw [← leastPressed_eq_none_iff]
  obtain ⟨hk, e⟩ | ⟨k, hk, e⟩ := execLdVxK_cases x s.advance
  · obtain rfl := Host.Outcome.next.inj (e.symm.trans h)
    exact ⟨fun _ => rfl, fun hpressed => absurd hk hpressed⟩
  · obtain rfl := Host.Outcome.next.inj (e.symm.trans h)
    exact ⟨fun hnone => absurd (hk.symm.trans hnone) (by simp), fun _ => rfl⟩

/-! ### PC after a step -/

/-- What R272 says of PC holds already at the end of the execute phase, which runs on the advanced PC. -/
theorem pcAfterStep_of_runs {hd : Handler} (h : Runs s.advance u hd) (hu : u.fault = none) : pcAfterStep s u hd := by
  cases hd with
  | nop => exact congrArg State.pc h
  | instr i =>
    cases i
    case ret => exact pcAfterStep_ret h hu
    case call => exact pcAfterStep_call h hu
    case skp => exact pcAfterStep_skp h hu
    case sknp => exact pcAfterStep_sknp h hu
    case ldVxK => exact pcAfterStep_ldVxK h
    case jp | jpV0 =>
      obtain rfl := Host.Outcome.next.inj h
      exact fun _ => ⟨_, rfl, rfl⟩
    case seVxKk | seVxVy | sneVxKk | sneVxVy =>
      obtain rfl := Host.Outcome.next.inj h
      exact (skipIf_pc _ _).trans (by simp)
    all_goals exact exec_pc_of_not_writes h hu (by simp [writes])

theorem pcAfterStep_endCycle (hd : Handler) : pcAfterStep s u.endCycle hd = pcAfterStep s u hd := by
  unfold pcAfterStep
  rw [endCycle_pc, endCycle_stack]

/-- Settles O55: the step's handler runs on the advanced PC, and the end of the cycle leaves PC and the stack alone. -/
theorem pcAdvancesBeforeDispatch : Obligations.PcAdvancesBeforeDispatch := by
  intro s t w hs hw hstep ht
  rw [step_runs s w hs hw] at hstep
  obtain ⟨u, hrun, rfl⟩ := finishStep_next _ _ hstep
  rw [endCycle_fault] at ht
  rw [pcAfterStep_endCycle]
  exact pcAfterStep_of_runs ((runHandler_eq_next_iff _).1 hrun) ht

end Sys2Proof.Proofs
end

section
/-! The decoder against the encoder (spec/30_encoding.md R80-R95): the fields of the encoder's words, the canonical word of
every instruction decoded back, the bits an entry ignores, the unmapped words. -/

open Sys2Proof Sys2Proof.Laws Sys2Proof.Statements

namespace Sys2Proof.Proofs

/-! ### The fields of the encoder's words -/

section Fields

variable {op b c : Nat} (ho : op < 16)
include ho

theorem opField_wordA (nnn : Addr) : opField (wordA op nnn) = op := (bits_wordA op nnn ho).1

theorem nnnField_wordA (nnn : Addr) : nnnField (wordA op nnn) = nnn := by
  simp [nnnField, bits_wordA op nnn ho]

theorem opField_wordXK (x : RegIdx) (kk : Byte) : opField (wordXK op x kk) = op := (bits_wordXK op x kk ho).1

theorem xField_wordXK (x : RegIdx) (kk : Byte) : xField (wordXK op x kk) = x :=
  Fin.ext (bits_wordXK op x kk ho).2.1

theorem kkField_wordXK (x : RegIdx) (kk : Byte) : kkField (wordXK op x kk) = kk := by
  simp [kkField, bits_wordXK op x kk ho]

variable (x : RegIdx) (hb : b < 16) (hc : c < 16)
include hb hc

theorem opField_wordOfNibbles : opField (wordOfNibbles op x b c) = op :=
  (bits_wordOfNibbles op x b c ho x.isLt hb hc).1

theorem xField_wordOfNibbles : xField (wordOfNibbles op x b c) = x := by
  obtain ⟨-, hx, -⟩ := bits_wordOfNibbles op x b c ho x.isLt hb hc
  exact Fin.ext hx

theorem yField_wordOfNibbles : yField (wordOfNibbles op x b c) = ⟨b, hb⟩ := by
  obtain ⟨-, -, hy, -⟩ := bits_wordOfNibbles op x b c ho x.isLt hb hc
  exact Fin.ext hy

theorem nField_wordOfNibbles : nField (wordOfNibbles op x b c) = ⟨c, hc⟩ := by
  obtain ⟨-, -, -, hn, -⟩ := bits_wordOfNibbles op x b c ho x.isLt hb hc
  exact Fin.ext hn

theorem lastNibble_wordOfNibbles : bits (wordOfNibbles op x b c) 3 0 = c := by
  obtain ⟨-, -, -, hn, -⟩ := bits_wordOfNibbles op x b c ho x.isLt hb hc
  exact hn

theorem lastByte_wordOfNibbles : bits (wordOfNibbles op x b c) 7 0 = b * 16 + c := by
  obtain ⟨-, -, -, -, hkk⟩ := bits_wordOfNibbles op x b c ho x.isLt hb hc
  exact hkk

end Fields

/-! ### Decoding what was encoded -/

/-- One case for each format of R81 and for each secondary table. -/
theorem decode_encode (i : Instr) : decode (encode i) = .instr i := by
  cases i
  case cls | ret => rfl
  case jp | call | ldI | jpV0 => simp [encode, decode, opField_wordA, nnnField_wordA]
  case seVxKk | sneVxKk | ldVxKk | addVxKk | rnd =>
    simp [encode, decode, opField_wordXK, xField_wordXK, kkField_wordXK]
  case seVxVy | sneVxVy | drw =>
    simp [encode, decode, opField_wordOfNibbles, xField_wordOfNibbles, yField_wordOfNibbles, nField_wordOfNibbles]
  case ldVxVy | orVxVy | andVxVy | xorVxVy | addVxVy | subVxVy | shrVx | subnVxVy | shlVx =>
    simp [encode, decode, decodeFamily8, opField_wordOfNibbles, xField_wordOfNibbles, yField_wordOfNibbles,
      lastNibble_wordOfNibbles]
  case skp | sknp =>
    simp [encode, decode, decodeFamilyE, opField_wordOfNibbles, xField_wordOfNibbles, lastNibble_wordOfNibbles]
  case ldVxDt | ldVxK | ldDtVx | ldStVx | addIVx | ldFVx | ldBVx | ldMemVx | ldVxMem =>
    simp [encode, decode, decodeFamilyF, opField_wordOfNibbles, xField_wordOfNibbles, lastByte_wordOfNibbles]

/-- The two bytes of a word in fetch order are the word again (R57). -/
theorem wordOfBytes_highByte_lowByte (w : Word) : wordOfBytes (highByte w) (lowByte w) = w := by
  have := w.isLt
  apply BitVec.eq_of_toNat_eq
  simp only [wordOfBytes, highByte, lowByte, bits, BitVec.toNat_append, BitVec.toNat_ofNat]
  rw [← Nat.shiftLeft_add_eq_or_of_lt (Nat.mod_lt _ (by decide)), Nat.shiftLeft_eq]
  omega

theorem decodeBytes_encodeBytes_append (i : Instr) (rest : List Byte) :
    decodeBytes (encodeBytes i ++ rest) = .ok (.instr i, rest) := by
  simp [encodeBytes, decodeBytes, wordOfBytes_highByte_lowByte, decode_encode]

theorem tableBytes_toNat_encode (i : Instr) : tableBytes 16 (encode i).toNat = encodeBytes i := by
  have hmod : (encode i).toNat % 2 ^ 16 = (encode i).toNat := Nat.mod_eq_of_lt (encode i).isLt
  simp only [tableBytes, encodeBytes, hmod, BitVec.ofNat_toNat, BitVec.setWidth_eq]

theorem decodeTableWord_encode (i : Instr) : decodeTableWord 16 (encode i).toNat = some i := by
  have h := decodeBytes_encodeBytes_append i []
  rw [List.append_nil] at h
  simp only [decodeTableWord, tableBytes_toNat_encode, h]

/-- Settles O1, from the three ways to hand the encoded number to the decoder. -/
theorem decodeOfEncodeIsIdentity : Obligations.DecodeOfEncodeIsIdentity := fun i _ =>
  ⟨decode_encode i, decodeTableWord_encode i, decodeBytes_encodeBytes_append i⟩

/-- Settles O2, by running the decoder on each word. -/
theorem sampleWordsDecode : Obligations.SampleWordsDecode := by
  unfold Obligations.SampleWordsDecode
  decide

/-! ### Fields as bit slices, and the bits an entry ignores -/

/-- What R5 writes w[hi:lo] is the bit slice of the vector library. -/
theorem bits_eq_extractLsb' (w : Word) (hi lo len : Nat) (h : hi + 1 - lo = len) :
    bits w hi lo = (w.extractLsb' lo len).toNat := by
  simp [bits, h, Nat.shiftRight_eq_div_pow]

/-- Settles O3: each field is one use of the slice. -/
theorem fieldsAreBitSlices : Obligations.FieldsAreBitSlices := by
  intro w
  refine ⟨bits_eq_extractLsb' w 15 12 4 rfl, bits_eq_extractLsb' w 11 8 4 rfl, bits_eq_extractLsb' w 7 4 4 rfl,
    bits_eq_extractLsb' w 3 0 4 rfl, ?_, ?_⟩
  · rw [kkField, bits_eq_extractLsb' w 7 0 8 rfl, BitVec.ofNat_toNat, BitVec.setWidth_eq]
  · rw [nnnField, bits_eq_extractLsb' w 11 0 12 rfl, BitVec.ofNat_toNat, BitVec.setWidth_eq]

section IgnoredBits

variable {w w' : Word}

theorem xField_congr (h : bits w 11 8 = bits w' 11 8) : xField w = xField w' := Fin.ext h

/-- The bits 11..4 hold both register fields. -/
theorem registers_congr (h : bits w 11 4 = bits w' 11 4) : xField w = xField w' ∧ yField w = yField w' := by
  simp only [xField, yField, Fin.mk.injEq, bits] at h ⊢
  omega

theorem decode_congr_of_skip (h : opField w = opField w') (hw : opField w = 0x5 ∨ opField w = 0x9)
    (hxy : bits w 11 4 = bits w' 11 4) : decode w = decode w' := by
  obtain ⟨hx, hy⟩ := registers_congr hxy
  obtain h5 | h9 := hw
  · simp [decode, ← h, h5, hx, hy]
  · simp [decode, ← h, h9, hx, hy]

theorem decodeFamily8_congr_of_shift (hw : bits w 3 0 = 0x6 ∨ bits w 3 0 = 0xE) (hx : bits w 11 8 = bits w' 11 8)
    (hn : bits w 3 0 = bits w' 3 0) : decodeFamily8 w = decodeFamily8 w' := by
  obtain h6 | hE := hw
  · simp [decodeFamily8, ← hn, h6, xField_congr hx]
  · simp [decodeFamily8, ← hn, hE, xField_congr hx]

end IgnoredBits

/-- Settles O4, family by family. -/
theorem ignoredBitsDoNotMatter : Obligations.IgnoredBitsDoNotMatter := by
  intro w w' (h : opField w = opField w')
  refine ⟨fun h0 hn => ?_, decode_congr_of_skip h, fun hE hx hn => ?_, fun h8 hs hx hn => ?_⟩
  · rw [decode_of_opField_zero h0, decode_of_opField_zero (h ▸ h0), decodeFamily0, hn, decodeFamily0]
  · rw [decode_of_opField_fourteen hE, decode_of_opField_fourteen (h ▸ hE), decodeFamilyE, hn, xField_congr hx,
      decodeFamilyE]
  · rw [decode_of_opField_eight h8, decode_of_opField_eight (h ▸ h8), decodeFamily8_congr_of_shift hs hx hn]

/-! ### The unmapped words (R91) -/

theorem decodeFamily0_eq_nop_iff (w : Word) : decodeFamily0 w = .nop ↔ bits w 3 0 ∉ [0x0, 0xE] := by
  unfold decodeFamily0
  split <;> simp_all

theorem decodeFamily8_eq_nop_iff (w : Word) :
    decodeFamily8 w = .nop ↔ bits w 3 0 ∈ [0x8, 0x9, 0xA, 0xB, 0xC, 0xD, 0xF] := by
  have hn : bits w 3 0 < 16 := Nat.mod_lt _ (by decide)
  unfold decodeFamily8
  split
  case h_10 => simp only [imp_false] at *; simp; omega
  all_goals simp_all

theorem decodeFamilyE_eq_nop_iff (w : Word) : decodeFamilyE w = .nop ↔ bits w 3 0 ∉ [0x1, 0xE] := by
  unfold decodeFamilyE
  split <;> simp_all

theorem decodeFamilyF_eq_nop_iff (w : Word) :
    decodeFamilyF w = .nop ↔ bits w 7 0 ∉ [0x07, 0x0A, 0x15, 0x18, 0x1E, 0x29, 0x33, 0x55, 0x65] := by
  unfold decodeFamilyF
  split <;> simp_all

/-- Only the four families with a secondary table have unmapped words. -/
theorem decode_eq_nop_iff (w : Word) : decode w = .nop ↔ Unmapped w := by
  have hop : opField w < 16 := Nat.mod_lt _ (by decide)
  have hprimary : Unmapped w ↔ (opField w = 0x0 ∧ decodeFamily0 w = .nop) ∨ (opField w = 0x8 ∧ decodeFamily8 w = .nop) ∨
      (opField w = 0xE ∧ decodeFamilyE w = .nop) ∨ (opField w = 0xF ∧ decodeFamilyF w = .nop) := by
    rw [decodeFamily0_eq_nop_iff, decodeFamily8_eq_nop_iff, decodeFamilyE_eq_nop_iff, decodeFamilyF_eq_nop_iff]
    rfl
  rw [hprimary]
  unfold decode
  split
  case h_16 =>
    have hF : opField w = 0xF := by simp only [imp_false] at *; omega
    simp [hF]
  all_goals simp_all

end Sys2Proof.Proofs
end

section
/-! The execute phase: what each state operation leaves unchanged, and once for all instructions what `exec` can answer
(spec/41 to spec/45, spec/60_exceptions.md R301). -/

open Sys2Proof Sys2Proof.Machine Sys2Proof.Statements

namespace Sys2Proof.Proofs

variable {s t u : State}

/-! ### Frames -/

theorem onlyChanges_refl (may : Part → Prop) (s : State) : OnlyChanges may s s := by
  intro p _
  cases p <;> simp [Part.Same]

theorem same_trans {p : Part} (hst : p.Same s t) (htu : p.Same t u) : p.Same s u := by
  cases p
  case session =>
    obtain ⟨hi, hk, hp⟩ := hst
    obtain ⟨hi', hk', hp'⟩ := htu
    exact ⟨hi'.trans hi, hk'.trans hk, hp'.trans hp⟩
  all_goals exact Eq.trans htu hst

theorem onlyChanges_trans {may : Part → Prop} (hst : OnlyChanges may s t) (htu : OnlyChanges may t u) :
    OnlyChanges may s u := fun p hp => same_trans (hst p hp) (htu p hp)

theorem onlyChanges_mono {may may' : Part → Prop} (h : OnlyChanges may s t) (hsub : ∀ p, may p → may' p) :
    OnlyChanges may' s t := fun p hp => h p fun hm => hp (hsub p hm)

theorem setV_frame (s : State) (x : RegIdx) (b : Byte) : OnlyChanges (· = .reg x) s (s.setV x b) := by
  intro p hp
  cases p
  case reg r => exact getV_setV_ne s x r b fun h => hp (h ▸ rfl)
  all_goals simp [Part.Same]

theorem setResultAndFlag_frame (s : State) (x : RegIdx) (b : Byte) (f : Bool) :
    OnlyChanges (fun p => p = .reg x ∨ p = .reg vF) s (s.setResultAndFlag x b f) :=
  onlyChanges_trans (onlyChanges_mono (setV_frame s x b) fun _ => .inl)
    (onlyChanges_mono (setV_frame (s.setV x b) vF (flagByte f)) fun _ => .inr)

theorem setVs_frame (s : State) (x : RegIdx) (vs : Vector Byte 16) (h : ∀ r, x < r → vs[r] = s.getV r) :
    OnlyChanges (fun p => ∃ r : RegIdx, r ≤ x ∧ p = .reg r) s (s.setVs vs) := by
  intro p hp
  cases p
  case reg r => exact h r (not_le.1 fun hr => hp ⟨r, hr, rfl⟩)
  all_goals simp [Part.Same]

theorem setI_frame (s : State) (a : Word) : OnlyChanges (· = .index) s (s.setI a) := by
  intro p hp
  cases p
  case index => exact absurd rfl hp
  all_goals simp [Part.Same]

theorem setPc_frame (s : State) (a : Word) : OnlyChanges (· = .pc) s (s.setPc a) := by
  intro p hp
  cases p
  case pc => exact absurd rfl hp
  all_goals simp [Part.Same]

theorem skipIf_frame (s : State) (b : Bool) : OnlyChanges (· = .pc) s (s.skipIf b) := by
  obtain ⟨a, h, _⟩ := skipIf_setPc s b
  rw [h]
  exact setPc_frame s a

theorem setSp_frame (s : State) (n : BitVec 8) : OnlyChanges (· = .sp) s (s.setSp n) := by
  intro p hp
  cases p
  case sp => exact absurd rfl hp
  all_goals simp [Part.Same]

theorem setStack_frame (s : State) (n : Nat) (a : Word) (h : n < 16) :
    OnlyChanges (fun p => ∃ j : Fin 16, p = .stack j ∧ j.val = n) s (s.setStack (s.stack.set n a h)) := by
  intro p hp
  cases p
  case stack j =>
    have hj : n ≠ j.val := fun e => hp ⟨j, rfl, e.symm⟩
    simp [Part.Same, hj]
  all_goals simp [Part.Same]

theorem setDt_frame (s : State) (b : Byte) : OnlyChanges (· = .delay) s (s.setDt b) := by
  intro p hp
  cases p
  case delay => exact absurd rfl hp
  all_goals simp [Part.Same]

theorem setSt_frame (s : State) (b : Byte) : OnlyChanges (· = .sound) s (s.setSt b) := by
  intro p hp
  cases p
  case sound => exact absurd rfl hp
  all_goals simp [Part.Same]

theorem setDisplay_frame (s : State) (d : Display) : OnlyChanges (fun p => ∃ x y, p = .pixel x y) s (s.setDisplay d) := by
  intro p hp
  cases p
  case pixel x y => exact absurd ⟨x, y, rfl⟩ hp
  all_goals simp [Part.Same]

theorem setMem_writeBytes_frame (s : State) (base : Nat) {bs : List Byte} {n : Nat} (hn : bs.length = n) :
    OnlyChanges (fun p => ∃ k, k < n ∧ p = .byte (base + k)) s (s.setMem (s.mem.writeBytes base bs)) := by
  subst hn
  intro p hp
  cases p
  case byte a =>
    refine read_writeBytes_outside bs s.mem base a fun ⟨hlo, hhi⟩ => hp ⟨a - base, by omega, ?_⟩
    rw [Nat.add_sub_cancel' hlo]
  all_goals simp [Part.Same]

theorem latchFault_frame (s : State) (c : Fault) (n : Nat) : OnlyChanges (· = .latch) s (s.latchFault c n) := by
  intro p hp
  cases p
  case latch => exact absurd rfl hp
  all_goals simp [Part.Same]

/-! The frames of the instructions whose rule writes more than one kind of piece, or a block. -/

theorem ret_frame (s : State) (n : BitVec 8) (a : Word) :
    OnlyChanges (fun p => p = .sp ∨ p = .pc) s ((s.setSp n).setPc a) :=
  onlyChanges_trans (onlyChanges_mono (setSp_frame s n) fun _ => .inl) (onlyChanges_mono (setPc_frame _ a) fun _ => .inr)

theorem call_frame (s : State) (n : BitVec 8) (a : Word) (h : s.sp.toNat < 16) :
    OnlyChanges (fun p => p = .pc ∨ p = .sp ∨ ∃ j : Fin 16, p = .stack j ∧ j.val = s.sp.toNat) s
      (((s.setStack (s.stack.set s.sp.toNat s.pc h)).setSp n).setPc a) :=
  onlyChanges_trans (onlyChanges_mono (setStack_frame s _ s.pc h) fun _ hp => .inr (.inr hp))
    (onlyChanges_trans (onlyChanges_mono (setSp_frame _ n) fun _ hp => .inr (.inl hp))
      (onlyChanges_mono (setPc_frame _ a) fun _ => .inl))

theorem drw_frame (s : State) (d : Display) (f : Bool) :
    OnlyChanges (fun p => p = .reg vF ∨ ∃ x y, p = .pixel x y) s ((s.setDisplay d).setVF f) :=
  onlyChanges_trans (onlyChanges_mono (setDisplay_frame s d) fun _ => .inr)
    (onlyChanges_mono (setV_frame _ vF _) fun _ => .inl)

theorem ldMemVx_frame (s : State) (x : RegIdx) : OnlyChanges (fun p => ∃ k, k ≤ x.val ∧ p = .byte (s.i.toNat + k)) s
    (s.setMem (s.mem.writeBytes s.i.toNat (s.regsUpTo x))) :=
  onlyChanges_mono (setMem_writeBytes_frame s _ (regsUpTo_length s x)) fun _ ⟨k, hk, hp⟩ => ⟨k, Nat.le_of_lt_succ hk, hp⟩

theorem ldVxMem_frame (s : State) (x : RegIdx) (base : Nat) :
    OnlyChanges (fun p => ∃ r : RegIdx, r ≤ x ∧ p = .reg r) s (s.setVs (s.regsLoaded x base)) :=
  setVs_frame s x _ fun r hx => by rw [regsLoaded_get, if_neg (not_le.2 hx)]

/-- A rule that raises a fault has changed the latch alone, and undone the advance of PC (R302). -/
theorem faults_of_raise {i : Instr} {c : Fault} {n : Nat} (h : exec i s = raise c n s) : Faults i s c n :=
  ⟨_, h, rfl, rfl, onlyChanges_trans (onlyChanges_mono (setPc_frame s (s.pc - 2)) fun _ => .inr)
    (onlyChanges_mono (latchFault_frame s.backPc c n) fun _ => .inl)⟩

/-! ### What `exec` can answer -/

/-- The fault the handler raises on a state that can be fetched from: the rows of the table of R301 below the fetch. -/
def handlerFault (s : State) : Handler → Option (Fault × Nat)
  | .instr (.call _) => if s.sp.toNat = 16 then some (.stackOverflow, 16) else none
  | .instr .ret => if s.sp.toNat = 0 then some (.stackUnderflow, 0) else none
  | .instr (.drw _ _ n) =>
    if n.val > 0 ∧ s.i.toNat + n.val - 1 > 0xFFF then some (.readOutOfRange, max s.i.toNat 0x1000) else none
  | .instr (.ldVxMem x) => if s.i.toNat + x.val > 0xFFF then some (.readOutOfRange, max s.i.toNat 0x1000) else none
  | .instr (.ldMemVx x) => if s.i.toNat + x.val > 0xFFF then some (.writeOutOfRange, max s.i.toNat 0x1000) else none
  | .instr (.ldBVx _) => if s.i.toNat + 2 > 0xFFF then some (.writeOutOfRange, max s.i.toNat 0x1000) else none
  | .instr (.skp x) => if (s.getV x).toNat > 0xF then some (.keyOutOfRange, (s.getV x).toNat) else none
  | .instr (.sknp x) => if (s.getV x).toNat > 0xF then some (.keyOutOfRange, (s.getV x).toNat) else none
  | _ => none

theorem ruleFault_of_fetch {w : Word} (hw : s.fetch = some w) : ruleFault s = handlerFault s (decode w) := by
  have hpc := fetch_range s w hw
  rw [fetch_some s hpc] at hw
  obtain rfl := Option.some.inj hw
  unfold ruleFault
  rw [if_neg (Nat.not_lt.2 hpc)]
  rfl

/-- A fault of the table is explained by the state that raises it (R302). -/
theorem explains_of_handlerFault {hd : Handler} {c : Fault} {n : Nat} (h : handlerFault s hd = some (c, n)) :
    s.Explains ⟨c, s.pc, n⟩ := by
  unfold handlerFault at h
  split at h
  case h_9 => cases h
  case h_3 | h_4 | h_5 | h_6 =>
    obtain ⟨hrange, rfl, rfl⟩ := by simpa using h
    exact ⟨rfl, by omega, rfl⟩
  case h_7 x | h_8 x =>
    obtain ⟨hkey, rfl, rfl⟩ := by simpa using h
    exact ⟨rfl, x, rfl, hkey⟩
  all_goals
    obtain ⟨hsp, rfl, rfl⟩ := by simpa using h
    exact ⟨rfl, by simp [hsp], rfl⟩

/-- Memory as the execute phase may leave it: as it was, or with one block of bytes in range written from I on (R59). -/
def StoresAtIndex (s t : State) : Prop :=
  t.mem = s.mem ∨ ∃ bs : List Byte, InRange s.i.toNat bs.length ∧ t.mem = s.mem.writeBytes s.i.toNat bs

theorem skipIf_mem (s : State) (b : Bool) : (s.skipIf b).mem = s.mem := by cases b <;> rfl

/-- The three answers `exec` has: it raises the fault of the table; it writes no more than its rule names; or, with SP
above 16, it refuses (log 28). -/
inductive ExecAnswer (i : Instr) (s : State) : Prop where
  | raises (c : Fault) (n : Nat) (hf : handlerFault s (.instr i) = some (c, n)) (e : exec i s = raise c n s)
  | completes (t : State) (hf : handlerFault s (.instr i) = none) (e : exec i s = .next t)
      (hm : StoresAtIndex s t) (hfr : OnlyChanges (writes s i) s t)
  | refuses (hsp : 16 < s.sp.toNat) (e : exec i s = .refused .illegalStackPointer)

theorem exec_answer (i : Instr) (s : State) : ExecAnswer i s := by
  cases i
  case ret =>
    obtain ⟨hsp, e⟩ | ⟨⟨hlo, _⟩, _, e⟩ | ⟨hsp, e⟩ := execRet_cases s
    · exact .raises _ _ (by simp [handlerFault, hsp]) e
    · exact .completes _ (by simp [handlerFault]; omega) e (.inl rfl) (ret_frame s _ _)
    · exact .refuses hsp e
  case call nnn =>
    obtain ⟨hsp, e⟩ | ⟨hsp, e⟩ | ⟨hsp, e⟩ := execCall_cases nnn s
    · exact .raises _ _ (by simp [handlerFault, hsp]) e
    · exact .completes _ (by simp [handlerFault]; omega) e (.inl rfl) (call_frame s _ _ hsp)
    · exact .refuses hsp e
  case drw x y n =>
    obtain ⟨hr, e⟩ | ⟨hr, _, e⟩ := execDrw_cases x y n s
    · exact .raises _ _ (if_pos hr) e
    · exact .completes _ (if_neg hr) e (.inl rfl) (drw_frame s _ _)
  case ldBVx x =>
    obtain ⟨hr, e⟩ | ⟨hr, e⟩ := execLdBVx_cases x s
    · exact .raises _ _ (if_pos hr) e
    · exact .completes _ (if_neg (Nat.not_lt.2 hr)) e (.inr ⟨_, .inr (by rw [decimalDigits_length]; omega), rfl⟩)
        (setMem_writeBytes_frame s _ (decimalDigits_length _))
  case ldMemVx x =>
    obtain ⟨hr, e⟩ | ⟨hr, e⟩ := execLdMemVx_cases x s
    · exact .raises _ _ (if_pos hr) e
    · exact .completes _ (if_neg (Nat.not_lt.2 hr)) e (.inr ⟨_, .inr (by rw [regsUpTo_length]; omega), rfl⟩)
        (ldMemVx_frame s x)
  case ldVxMem x =>
    obtain ⟨hr, e⟩ | ⟨hr, e⟩ := execLdVxMem_cases x s
    · exact .raises _ _ (if_pos hr) e
    · exact .completes _ (if_neg (Nat.not_lt.2 hr)) e (.inl rfl) (ldVxMem_frame s x _)
  case skp x =>
    obtain ⟨hx, e⟩ | ⟨hx, e⟩ := execSkp_cases x s
    · exact .raises _ _ (if_pos hx) e
    · exact .completes _ (if_neg (by omega)) e (.inl (skipIf_mem s _)) (skipIf_frame s _)
  case sknp x =>
    obtain ⟨hx, e⟩ | ⟨hx, e⟩ := execSknp_cases x s
    · exact .raises _ _ (if_pos hx) e
    · exact .completes _ (if_neg (by omega)) e (.inl (skipIf_mem s _)) (skipIf_frame s _)
  case ldVxK x =>
    obtain ⟨_, e⟩ | ⟨k, _, e⟩ := execLdVxK_cases x s
    · exact .completes _ rfl e (.inl rfl) (onlyChanges_mono (setPc_frame s _) fun _ => .inr)
    · exact .completes _ rfl e (.inl rfl) (onlyChanges_mono (setV_frame s x _) fun _ => .inl)
  case cls => exact .completes _ rfl rfl (.inl rfl) (setDisplay_frame s _)
  case jp | jpV0 => exact .completes _ rfl rfl (.inl rfl) (setPc_frame s _)
  case seVxKk | sneVxKk | seVxVy | sneVxVy => exact .completes _ rfl rfl (.inl (skipIf_mem s _)) (skipIf_frame s _)
  case ldI | addIVx | ldFVx => exact .completes _ rfl rfl (.inl rfl) (setI_frame s _)
  case ldDtVx => exact .completes _ rfl rfl (.inl rfl) (setDt_frame s _)
  case ldStVx => exact .completes _ rfl rfl (.inl rfl) (setSt_frame s _)
  case addVxVy | subVxVy | shrVx | subnVxVy | shlVx => exact .completes _ rfl rfl (.inl rfl) (setResultAndFlag_frame s _ _ _)
  case ldVxKk | addVxKk | ldVxVy | orVxVy | andVxVy | xorVxVy | rnd | ldVxDt =>
    exact .completes _ rfl rfl (.inl rfl) (setV_frame s _ _)

/-- The latch is no piece an instruction's rule writes; it is set by raising a fault. -/
theorem exec_next_cases {i : Instr} (h : exec i s = .next t) :
    (∃ c n, handlerFault s (.instr i) = some (c, n) ∧ t = s.backPc.latchFault c n) ∨
    (handlerFault s (.instr i) = none ∧ t.fault = s.fault ∧ StoresAtIndex s t ∧ OnlyChanges (writes s i) s t) := by
  obtain ⟨c, n, hf, e⟩ | ⟨u, hf, e, hm, hfr⟩ | ⟨_, e⟩ := exec_answer i s
  · exact .inl ⟨c, n, hf, (Host.Outcome.next.inj (e.symm.trans h)).symm⟩
  · obtain rfl := Host.Outcome.next.inj (e.symm.trans h)
    refine .inr ⟨hf, hfr .latch fun hw => ?_, hm, hfr⟩
    cases i <;> simp [writes] at hw
  · cases e.symm.trans h

/-- Settles O42: with the latch still clear no fault was raised, so the frame of the rule holds. -/
theorem everyInstructionKeepsItsFrame : Obligations.EveryInstructionKeepsItsFrame := by
  intro i s t h hkept hclear
  obtain ⟨c, n, _, rfl⟩ | ⟨_, _, _, hfr⟩ := exec_next_cases h
  · exact absurd (hkept.trans hclear) (by simp)
  · exact hfr

end Sys2Proof.Proofs
end

section
/-! The step (spec/46_cycle_driver.md) and the faults (spec/60_exceptions.md): what a step of a running core can answer, and
from it the fault table, the invariant and the runs that never stop. -/

open Sys2Proof Sys2Proof.Machine Sys2Proof.Statements

namespace Sys2Proof.Proofs

variable {s t u : State} {w : Word}

/-! ### What a step of a running core can answer -/

/-- The pieces of state a handler writes where it raises no fault; the no-op writes none (R91). -/
def handlerWrites (s : State) : Handler → Part → Prop
  | .instr i => writes s i
  | .nop => fun _ => False

theorem handlerFault_advance (s : State) (hd : Handler) : handlerFault s.advance hd = handlerFault s hd := by
  cases hd with
  | nop => rfl
  | instr i => cases i <;> rfl

/-- A handler that completed raised the fault of the table, taking back the advance, or wrote what its rule names. -/
theorem runHandler_next_cases {hd : Handler} (h : runHandler hd s.advance = .next u) :
    (∃ c n, handlerFault s hd = some (c, n) ∧ u = s.latchFault c n) ∨
    (handlerFault s hd = none ∧ u.fault = s.fault ∧ OnlyChanges (handlerWrites s.advance hd) s.advance u) := by
  cases hd with
  | nop =>
    obtain rfl := Host.Outcome.next.inj h
    exact .inr ⟨rfl, rfl, onlyChanges_refl _ _⟩
  | instr i =>
    obtain ⟨c, n, hf, rfl⟩ | ⟨hf, hkept, _, hfr⟩ := exec_next_cases h
    · exact .inl ⟨c, n, (handlerFault_advance s _).symm.trans hf, by rw [advance_backPc]⟩
    · exact .inr ⟨(handlerFault_advance s _).symm.trans hf, hkept, hfr⟩

theorem step_next_cases (hs : s.fault = none) (hw : s.fetch = some w) (h : step s = .next t) :
    (∃ c n, handlerFault s (decode w) = some (c, n) ∧ t = s.latchFault c n) ∨
    (∃ u, handlerFault s (decode w) = none ∧ u.fault = none ∧ Runs s.advance u (decode w) ∧
      OnlyChanges (handlerWrites s.advance (decode w)) s.advance u ∧ t = u.endCycle) := by
  rw [step_runs s w hs hw] at h
  obtain ⟨u, hrun, rfl⟩ := finishStep_next _ _ h
  obtain ⟨c, n, hf, rfl⟩ | ⟨hf, hkept, hfr⟩ := runHandler_next_cases hrun
  · exact .inl ⟨c, n, hf, endCycle_faulted _ _ rfl⟩
  · exact .inr ⟨u, hf, hkept.trans hs, (runHandler_eq_next_iff _).1 hrun, hfr, rfl⟩

/-- With a legal SP no handler refuses (R25), so a step always answers a next state. -/
theorem exists_step_next (hsp : s.sp.toNat ≤ 16) : ∃ t, step s = .next t := by
  cases hs : s.fault with
  | some f => exact ⟨s, step_halted s f hs⟩
  | none =>
    cases hw : s.fetch with
    | none => exact ⟨_, step_fetchFault s hs hw⟩
    | some w =>
      suffices ∃ u, runHandler (decode w) s.advance = .next u by
        obtain ⟨u, hu⟩ := this
        exact ⟨u.endCycle, by rw [step_runs s w hs hw, hu, finishStep]⟩
      cases decode w with
      | nop => exact ⟨_, rfl⟩
      | instr i =>
        obtain ⟨c, n, _, e⟩ | ⟨u, _, e, _, _⟩ | ⟨hill, _⟩ := exec_answer i s.advance
        · exact ⟨_, e⟩
        · exact ⟨u, e⟩
        · exact absurd hill (Nat.not_lt.2 hsp)

theorem pc_out_of_range_of_fetch (hw : s.fetch = none) : s.pc.toNat > 0xFFE := by
  by_contra h
  rw [fetch_some s (Nat.not_lt.1 h)] at hw
  cases hw

theorem ruleFault_of_pc (h : s.pc.toNat > 0xFFE) : ruleFault s = some (.fetchOutOfRange, s.pc.toNat) := if_pos h

/-- A step of a running core raises the fault the table gives for the state, and then changes the latch alone; where the
table gives none, the latch stays clear. -/
theorem step_fault_cases (hs : s.fault = none) (h : step s = .next t) :
    (∃ c n, ruleFault s = some (c, n) ∧ t = s.latchFault c n ∧ s.Explains ⟨c, s.pc, n⟩) ∨
    (ruleFault s = none ∧ t.fault = none) := by
  cases hw : s.fetch with
  | none =>
    have hpc := pc_out_of_range_of_fetch hw
    rw [step_fetchFault s hs hw] at h
    obtain rfl := Host.Outcome.next.inj h
    exact .inl ⟨_, _, ruleFault_of_pc hpc, rfl, rfl, hpc, rfl⟩
  | some w =>
    rw [ruleFault_of_fetch hw]
    obtain ⟨c, n, hf, rfl⟩ | ⟨u, hf, hu, _, _, rfl⟩ := step_next_cases hs hw h
    · exact .inl ⟨c, n, hf, rfl, explains_of_handlerFault hf⟩
    · exact .inr ⟨hf, by rw [endCycle_fault, hu]⟩

/-- Settles O38, by the two cases of a step of a running core. -/
theorem stepFaultsExactlyByTheTable : Obligations.StepFaultsExactlyByTheTable := by
  intro s hs hsp
  obtain ⟨t, h⟩ := exists_step_next hsp
  refine ⟨t, h, ?_⟩
  obtain ⟨c, n, hf, rfl, _⟩ | ⟨hf, hclear⟩ := step_fault_cases hs h
  · exact ⟨by rw [hf]; rfl, fun _ => latchFault_frame s c n⟩
  · exact ⟨by rw [hf, hclear]; rfl, fun hne => absurd hclear hne⟩

/-- Settles O39. -/
theorem faultingStepCommitsNothing : Obligations.FaultingStepCommitsNothing := by
  intro s t f hs h hf
  obtain ⟨c, n, _, rfl, hex⟩ | ⟨_, hclear⟩ := step_fault_cases hs h
  · obtain rfl := Option.some.inj hf
    exact ⟨rfl, hex⟩
  · rw [hclear] at hf
    cases hf

/-- Settles O36. -/
theorem fetchOutOfRangeFaults : Obligations.FetchOutOfRangeFaults := fun s hs hpc =>
  ⟨_, step_fetchFault s hs (fetch_none s hpc), rfl, latchFault_frame s _ _⟩

/-- Settles O35: the bytes that decode to `i` are the fetched word. -/
theorem stepRunsTheDecodedInstruction : Obligations.StepRunsTheDecodedInstruction := by
  intro s i rest hs hpc _ hdec
  refine ⟨?_, fun t => ?_⟩
  · simp only [decodeBytes, Except.ok.injEq, Prod.mk.injEq, and_true] at hdec
    rw [step_runs s _ hs (fetch_some s hpc), hdec]
    rfl
  · cases hf : t.fault with
    | none => simp [finishStep, endCycle_running t hf, hf]
    | some f => simp [finishStep, endCycle_faulted t f hf]

/-! ### The invariant -/

/-- A raised fault keeps the invariant, since its record is explained by the state it leaves (R302). -/
theorem inv_latchFault {c : Fault} {n : Nat} (hinv : s.Inv) (hex : s.Explains ⟨c, s.pc, n⟩) : (s.latchFault c n).Inv where
  memory := hinv.memory
  stackPointer := hinv.stackPointer
  returnAddress := hinv.returnAddress
  programCounter := hinv.programCounter
  latch := fun f hf => by
    obtain rfl := Option.some.inj hf
    exact hex

/-- A store inside the address space keeps the canonical form (R50). -/
theorem wf_of_storesAtIndex (hst : StoresAtIndex s t) (hm : s.mem.wf) : t.mem.wf := by
  obtain e | ⟨bs, hr, e⟩ := hst
  · rwa [e]
  · rw [e]
    exact wf_writeBytes bs s.mem _ hm hr

section Execute

/-! Of an instruction that raised no fault the frame gives each register of the control unit, except where its rule writes
it. `s` is the state after the advance of a PC that could be fetched from (R271, R272). -/

variable {i : Instr} (h : exec i s = .next u) (hs : s.fault = none) (hu : u.fault = none)
include h hu

theorem exec_keeps_pc_le (hlo : 2 ≤ s.pc.toNat) (hhi : s.pc.toNat ≤ 0x1000)
    (hstack : ∀ j : Fin 16, s.stack[j].toNat ≤ 0x1000) : u.pc.toNat ≤ 0x10FE := by
  have skipped : ∀ b, (s.skipIf b).pc.toNat ≤ 0x10FE := by
    intro b
    obtain ⟨a, e, rfl | rfl⟩ := skipIf_setPc s b
    · rw [e, setPc_pc]
      omega
    · rw [e, setPc_pc]
      bv_omega
  cases i
  case jp nnn =>
    obtain rfl := Host.Outcome.next.inj h
    have := nnn.isLt
    rw [setPc_pc, addrOperand_toNat]
    omega
  case jpV0 nnn =>
    obtain rfl := Host.Outcome.next.inj h
    have := nnn.isLt
    have := (s.getV v0).isLt
    rw [setPc_pc, addByte_toNat, addrOperand_toNat]
    omega
  case ret =>
    obtain ⟨_, hj, e⟩ | ⟨_, e⟩ := not_raised (execRet_cases s) h hu
    · obtain rfl := Host.Outcome.next.inj (e.symm.trans h)
      exact (hstack ⟨_, hj⟩).trans (by decide)
    · cases e.symm.trans h
  case call nnn =>
    obtain ⟨_, e⟩ | ⟨_, e⟩ := not_raised (execCall_cases nnn s) h hu
    · obtain rfl := Host.Outcome.next.inj (e.symm.trans h)
      have := nnn.isLt
      rw [setPc_pc, addrOperand_toNat]
      omega
    · cases e.symm.trans h
  case skp x =>
    obtain ⟨_, e⟩ := not_raised (execSkp_cases x s) h hu
    obtain rfl := Host.Outcome.next.inj (e.symm.trans h)
    exact skipped _
  case sknp x =>
    obtain ⟨_, e⟩ := not_raised (execSknp_cases x s) h hu
    obtain rfl := Host.Outcome.next.inj (e.symm.trans h)
    exact skipped _
  case seVxKk | sneVxKk | seVxVy | sneVxVy =>
    obtain rfl := Host.Outcome.next.inj h
    exact skipped _
  case ldVxK x =>
    obtain ⟨_, e⟩ | ⟨_, _, e⟩ := execLdVxK_cases x s
    · obtain rfl := Host.Outcome.next.inj (e.symm.trans h)
      rw [backPc_pc]
      bv_omega
    · obtain rfl := Host.Outcome.next.inj (e.symm.trans h)
      exact hhi.trans (by decide)
  all_goals
    rw [exec_pc_of_not_writes h hu (by simp [writes])]
    exact hhi.trans (by decide)

include hs

theorem exec_keeps_sp_le (hsp : s.sp.toNat ≤ 16) : u.sp.toNat ≤ 16 := by
  have hfr := everyInstructionKeepsItsFrame i s u h (hu.trans hs.symm) hs .sp
  cases i
  case ret =>
    obtain ⟨⟨hlo, _⟩, _, e⟩ | ⟨_, e⟩ := not_raised (execRet_cases s) h hu
    · obtain rfl := Host.Outcome.next.inj (e.symm.trans h)
      simp only [setPc_sp, setSp_sp]
      bv_omega
    · cases e.symm.trans h
  case call nnn =>
    obtain ⟨hlt, e⟩ | ⟨_, e⟩ := not_raised (execCall_cases nnn s) h hu
    · obtain rfl := Host.Outcome.next.inj (e.symm.trans h)
      simp only [setPc_sp, setSp_sp]
      bv_omega
    · cases e.symm.trans h
  all_goals
    have hsame : u.sp = s.sp := hfr (by simp [writes])
    rwa [hsame]

theorem exec_keeps_stack_le (hpc : s.pc.toNat ≤ 0x1000) (hstack : ∀ j : Fin 16, s.stack[j].toNat ≤ 0x1000) (j : Fin 16) :
    u.stack[j].toNat ≤ 0x1000 := by
  have hfr := everyInstructionKeepsItsFrame i s u h (hu.trans hs.symm) hs (.stack j)
  cases i
  case call nnn =>
    obtain ⟨hlt, e⟩ | ⟨_, e⟩ := not_raised (execCall_cases nnn s) h hu
    · obtain rfl := Host.Outcome.next.inj (e.symm.trans h)
      simp only [setPc_stack, setSp_stack, setStack_stack, Fin.getElem_fin, Vector.getElem_set]
      split
      · exact hpc
      · exact hstack j
    · cases e.symm.trans h
  all_goals
    have hsame : u.stack[j] = s.stack[j] := hfr (by simp [writes])
    rw [hsame]
    exact hstack j

end Execute

theorem advance_pc_bounds (hw : s.fetch = some w) : 2 ≤ s.advance.pc.toNat ∧ s.advance.pc.toNat ≤ 0x1000 := by
  have hpc := fetch_range s w hw
  rw [advance_pc]
  constructor <;> bv_omega

/-- A handler that raised no fault leaves a state with the invariant, run on the advanced state. -/
theorem inv_of_runs {hd : Handler} (hinv : s.Inv) (hs : s.fault = none) (hw : s.fetch = some w)
    (h : Runs s.advance u hd) (hu : u.fault = none) : u.Inv := by
  obtain ⟨hlo, hhi⟩ := advance_pc_bounds hw
  cases hd with
  | nop =>
    obtain rfl := h
    exact ⟨hinv.memory, hinv.stackPointer, hinv.returnAddress, hhi.trans (by decide), fun f hf => by
      rw [hu] at hf
      cases hf⟩
  | instr i =>
    obtain ⟨_, _, _, rfl⟩ | ⟨_, _, hm, _⟩ := exec_next_cases h
    · cases hu
    · exact ⟨wf_of_storesAtIndex hm hinv.memory, exec_keeps_sp_le h hs hu hinv.stackPointer,
        exec_keeps_stack_le h hs hu hhi hinv.returnAddress, exec_keeps_pc_le h hu hlo hhi hinv.returnAddress,
        fun f hf => by
          rw [hu] at hf
          cases hf⟩

theorem inv_endCycle (hinv : u.Inv) (hu : u.fault = none) : u.endCycle.Inv where
  memory := by rw [endCycle_mem]; exact hinv.memory
  stackPointer := by rw [endCycle_sp]; exact hinv.stackPointer
  returnAddress := by rw [endCycle_stack]; exact hinv.returnAddress
  programCounter := by rw [endCycle_pc]; exact hinv.programCounter
  latch := fun f hf => by
    rw [endCycle_fault, hu] at hf
    cases hf

/-- Settles O53: a halted core stays, a fault is explained, and a handler that completes keeps each clause. -/
theorem everyStepKeepsInvariant : Obligations.EveryStepKeepsInvariant := by
  intro s t hinv h
  cases hs : s.fault with
  | some f =>
    rw [step_halted s f hs] at h
    obtain rfl := Host.Outcome.next.inj h
    exact hinv
  | none =>
    obtain ⟨c, n, _, rfl, hex⟩ | ⟨_, hclear⟩ := step_fault_cases hs h
    · exact inv_latchFault hinv hex
    · obtain ⟨_, rfl⟩ | ⟨_, _, rfl⟩ | ⟨w, u, _, hw, hrun, rfl⟩ := step_cases s t h
      · exact hinv
      · cases hclear
      · rw [endCycle_fault] at hclear
        exact inv_endCycle (inv_of_runs hinv hs hw ((runHandler_eq_next_iff _).1 hrun) hclear) hclear

/-- Settles O54, by induction on the number of steps: the invariant has a legal SP, so the step answers, and keeps the
invariant for the rest of the run. -/
theorem runsNeverStopOtherwise : Obligations.RunsNeverStopOtherwise := by
  intro k
  induction k with
  | zero => exact fun s hinv => ⟨s, rfl, hinv⟩
  | succ k ih =>
    intro s hinv
    obtain ⟨t, h⟩ := exists_step_next hinv.stackPointer
    rw [run_succ k s t h]
    exact ih t (everyStepKeepsInvariant s t hinv h)

end Sys2Proof.Proofs
end

section
/-! What single steps and bounded runs do to the timers, the display and the rest of the core (spec/46_cycle_driver.md R274,
R277, spec/60_exceptions.md R303, R312, spec/70_reset_and_hazards.md R335). -/

open Sys2Proof Sys2Proof.Machine Sys2Proof.Statements

namespace Sys2Proof.Proofs

variable {s t u : State} {w : Word}

/-- Settles O40, by induction on the number of steps, each of which answers the state itself. -/
theorem haltedCoreStaysHalted : Obligations.HaltedCoreStaysHalted := by
  refine fun s hh => ⟨fun k => ?_, rfl⟩
  obtain ⟨f, hf⟩ := Option.isSome_iff_exists.1 hh
  induction k with
  | zero => rfl
  | succ k ih => rw [run_succ k s s (step_halted s f hf), ih]

/-! ### The end of a cycle -/

theorem endCycle_dt_toNat (hu : u.fault = none) : u.endCycle.dt.toNat = u.dt.toNat - 1 := by
  simp [endCycle_running u hu]

theorem endCycle_st_toNat (hu : u.fault = none) : u.endCycle.st.toNat = u.st.toNat - 1 := by
  simp [endCycle_running u hu]

theorem endCycle_inputs (hu : u.fault = none) : u.endCycle.inputs = u.inputs.tail := by
  simp [endCycle_running u hu]

theorem fetch_endCycle (u : State) : u.endCycle.fetch = u.fetch := by
  simp [State.fetch]

theorem handlerWrites_delay {hd : Handler} (h : handlerWrites s hd .delay) : ∃ x, hd = .instr (.ldDtVx x) := by
  cases hd with
  | nop => exact h.elim
  | instr i =>
    cases i
    case ldDtVx x => exact ⟨x, rfl⟩
    all_goals simp [handlerWrites, writes] at h

theorem handlerWrites_sound {hd : Handler} (h : handlerWrites s hd .sound) : ∃ x, hd = .instr (.ldStVx x) := by
  cases hd with
  | nop => exact h.elim
  | instr i =>
    cases i
    case ldStVx x => exact ⟨x, rfl⟩
    all_goals simp [handlerWrites, writes] at h

theorem handlerWrites_pixel {hd : Handler} {x : Fin 64} {y : Fin 32} (h : handlerWrites s hd (.pixel x y)) :
    hd = .instr .cls ∨ ∃ a b n, hd = .instr (.drw a b n) := by
  cases hd with
  | nop => exact h.elim
  | instr i =>
    cases i
    case cls => exact .inl rfl
    case drw a b n => exact .inr ⟨a, b, n, rfl⟩
    all_goals simp [handlerWrites, writes] at h

/-- Settles O37: the handler leaves a timer it does not set, and then the cycle ends. -/
theorem timersDecayEachStep : Obligations.TimersDecayEachStep := by
  intro s t w hs hw h ht
  obtain ⟨c, n, _, rfl⟩ | ⟨u, _, hu, _, hfr, rfl⟩ := step_next_cases hs hw h
  · cases ht
  · refine ⟨fun hne => ?_, fun hne => ?_⟩
    · have hdt : u.dt = s.dt := hfr .delay fun hd => (handlerWrites_delay hd).elim hne
      rw [endCycle_dt_toNat hu, hdt]
    · have hst : u.st = s.st := hfr .sound fun hd => (handlerWrites_sound hd).elim hne
      rw [endCycle_st_toNat hu, hst]

/-- Settles O30: a halted core, a fault and the end of a cycle leave the display, and so does every handler but the two. -/
theorem displayChangesOnlyByClsAndDrw : Obligations.DisplayChangesOnlyByClsAndDrw := by
  refine ⟨fun s t x y h hne => ?_, fun s x y => ⟨fun hon => if_pos hon, fun hoff => by simp [State.displayOutput, hoff]⟩⟩
  obtain ⟨_, rfl⟩ | ⟨_, _, rfl⟩ | ⟨w, u, _, hw, hrun, rfl⟩ := step_cases s t h
  · exact absurd rfl hne
  · exact absurd rfl hne
  · refine ⟨w, hw, ?_⟩
    rw [endCycle_display] at hne
    obtain ⟨c, n, _, rfl⟩ | ⟨_, _, hfr⟩ := runHandler_next_cases hrun
    · exact absurd rfl hne
    · exact handlerWrites_pixel (not_imp_comm.1 (hfr (.pixel x y)) hne)

/-- Settles O5: the no-op's step is the end of the cycle on the advanced state. -/
theorem unmappedWordsAreNoOps : Obligations.UnmappedWordsAreNoOps := by
  refine ⟨decode_eq_nop_iff, fun _ => rfl, fun s w hs hw hun => ?_⟩
  have hrun : Runs (s.addPc 2) s.advance (decode w) := by
    rw [(decode_eq_nop_iff w).2 hun]
    rfl
  exact ⟨s.advance.endCycle, step_of_runs hs hw hrun, endCycle_pc _, endCycle_dt_toNat hs, endCycle_st_toNat hs,
    onlyChanges_trans (onlyChanges_mono (setPc_frame s _) fun _ => .inl) (onlyChanges_mono (endCycle_frame _) fun _ => .inr)⟩

/-! ### Runs whose every step is the end of a cycle alone -/

/-- The core waits over `k` steps where it satisfies `P k`: if `P` makes the step end the cycle on the state as it is and
holds again with one step less, the run ends with the timers `k` less and the rest of the core as before. -/
theorem run_of_waiting {P : Nat → State → Prop}
    (hP : ∀ k s, P (k + 1) s → s.fault = none ∧ step s = .next s.endCycle ∧ P k s.endCycle) (k : Nat) (s : State)
    (h : P k s) : ∃ t, Host.Core.run core k s = .next t ∧ t.dt.toNat = s.dt.toNat - k ∧ t.st.toNat = s.st.toNat - k ∧
      OnlyChanges (fun p => p = .delay ∨ p = .sound ∨ p = .session) s t := by
  induction k generalizing s with
  | zero => exact ⟨s, rfl, rfl, rfl, onlyChanges_refl _ s⟩
  | succ k ih =>
    obtain ⟨hs, hstep, hnext⟩ := hP k s h
    obtain ⟨t, hrun, hdt, hst, hfr⟩ := ih s.endCycle hnext
    rw [endCycle_dt_toNat hs] at hdt
    rw [endCycle_st_toNat hs] at hst
    exact ⟨t, by rw [run_succ k s _ hstep, hrun], by omega, by omega, onlyChanges_trans (endCycle_frame s) hfr⟩

/-- A JP to the address it stands at takes back the advance. -/
theorem exec_jp_self {nnn : Addr} (h : s.pc.toNat = nnn.toNat) : exec (.jp nnn) s.advance = .next s := by
  have hpc : addrOperand nnn = s.pc := BitVec.eq_of_toNat_eq (by rw [addrOperand_toNat, h])
  simp only [exec, execJp, hpc]
  rfl

/-- Settles O41: every step of the self-jump is the end of a cycle. -/
theorem selfJumpMakesNoProgress : Obligations.SelfJumpMakesNoProgress := by
  intro nnn w k s hs hw hd hpc
  refine run_of_waiting (P := fun _ s => s.fault = none ∧ s.fetch = some w ∧ s.pc.toNat = nnn.toNat) ?_ k s ⟨hs, hw, hpc⟩
  rintro - s ⟨hs, hw, hpc⟩
  have hrun : Runs (s.addPc 2) s (decode w) := by
    rw [hd]
    exact exec_jp_self hpc
  exact ⟨hs, step_of_runs hs hw hrun, by rw [endCycle_fault, hs], by rw [fetch_endCycle, hw], by rw [endCycle_pc, hpc]⟩

/-- LD Vx,K without a pressed key takes back the advance. -/
theorem exec_ldVxK_noKey {x : RegIdx} (h : noKey s.input) : exec (.ldVxK x) s.advance = .next s := by
  obtain ⟨_, e⟩ | ⟨k, hk, _⟩ := execLdVxK_cases x s.advance
  · exact e.trans (by rw [advance_backPc])
  · cases hk.symm.trans ((leastPressed_eq_none_iff s.input).2 h)

/-- The next `k` inputs of `s` are listed and press no key. -/
def QuietFor (k : Nat) (s : State) : Prop := k ≤ s.inputs.length ∧ ∀ inp ∈ s.inputs.take k, noKey inp

/-- A listed input is the one the step samples, and ending the cycle uses it up (log 17). -/
theorem quietFor_succ {k : Nat} (hs : s.fault = none) (h : QuietFor (k + 1) s) : noKey s.input ∧ QuietFor k s.endCycle := by
  obtain ⟨hlen, hquiet⟩ := h
  unfold QuietFor
  rw [endCycle_inputs hs]
  unfold State.input
  cases hin : s.inputs with
  | nil => simp [hin] at hlen
  | cons inp rest =>
    rw [hin, List.length_cons] at hlen
    rw [hin, List.take_succ_cons] at hquiet
    exact ⟨hquiet inp List.mem_cons_self, Nat.le_of_succ_le_succ hlen, fun i hi => hquiet i (List.mem_cons_of_mem inp hi)⟩

/-- Settles O34: every step of the wait is the end of a cycle, and uses up one quiet input. -/
theorem busyWaitKeepsPcAndDecaysTimers : Obligations.BusyWaitKeepsPcAndDecaysTimers := by
  intro x w k s hs hw hd hlen hquiet
  refine run_of_waiting (P := fun k s => s.fault = none ∧ s.fetch = some w ∧ QuietFor k s) ?_ k s ⟨hs, hw, hlen, hquiet⟩
  rintro k s ⟨hs, hw, hq⟩
  obtain ⟨hnone, hq'⟩ := quietFor_succ hs hq
  have hrun : Runs (s.addPc 2) s (decode w) := by
    rw [hd]
    exact exec_ldVxK_noKey hnone
  exact ⟨hs, step_of_runs hs hw hrun, by rw [endCycle_fault, hs], by rw [fetch_endCycle, hw], hq'⟩

/-! ### The timer instructions over whole steps -/

theorem step_ldDtVx {x : RegIdx} (hs : s.fault = none) (hw : s.fetch = some w) (hd : decode w = .instr (.ldDtVx x)) :
    step s = .next (s.advance.setDt (s.getV x)).endCycle :=
  step_of_runs hs hw (by rw [hd]; rfl)

theorem step_ldStVx {x : RegIdx} (hs : s.fault = none) (hw : s.fetch = some w) (hd : decode w = .instr (.ldStVx x)) :
    step s = .next (s.advance.setSt (s.getV x)).endCycle :=
  step_of_runs hs hw (by rw [hd]; rfl)

theorem step_ldVxDt {x : RegIdx} (hs : s.fault = none) (hw : s.fetch = some w) (hd : decode w = .instr (.ldVxDt x)) :
    step s = .next (s.advance.setV x s.dt).endCycle :=
  step_of_runs hs hw (by rw [hd]; rfl)

/-- Settles O48: the step that sets DT ends with one decay, which the next step's read sees. -/
theorem delayReadAfterWriteIsOneLess : Obligations.DelayReadAfterWriteIsOneLess := by
  intro s w w' x y hs hw hd hw' hd' _
  let t := (s.advance.setDt (s.getV x)).endCycle
  have hts : t.fault = none := (endCycle_fault _).trans hs
  have hdt : t.dt.toNat = (s.getV x).toNat - 1 := endCycle_dt_toNat (u := s.advance.setDt (s.getV x)) hs
  have htw : t.fetch = some w' := (fetch_endCycle _).trans hw'
  refine ⟨(t.advance.setV y t.dt).endCycle, ?_, ?_, ?_⟩
  · rw [run_succ 1 s t (step_ldDtVx hs hw hd), run_succ 0 t _ (step_ldVxDt hts htw hd')]
    rfl
  · rw [getV_endCycle, getV_setV_same, hdt]
  · rw [endCycle_dt_toNat (u := t.advance.setV y t.dt) hts, setV_dt, advance_dt, hdt, Nat.sub_sub]

end Sys2Proof.Proofs
end

section
/-! Memory (spec/20_memory.md): equality of canonical memories, what the two stores leave at an address, and reset and load
(spec/70_reset_and_hazards.md R330-R336). -/

open Sys2Proof Sys2Proof.Machine Sys2Proof.Statements

namespace Sys2Proof.Proofs

variable {s t : State} {w : Word}

/-- Settles O45. -/
theorem memoryReadAfterWrite : Obligations.MemoryReadAfterWrite :=
  ⟨fun m a k b => read_write m a b k, fun m a b h ha => wf_write m a b h (Nat.lt_succ_of_le ha)⟩

/-! ### Equality of canonical memories -/

theorem wf_of_cons {c : Host.Cell} {m : Memory} (h : Memory.wf (c :: m)) :
    Memory.wf m ∧ (∀ d ∈ m, c.1 < d.1) ∧ c.2 ≠ resetByte c.1 := by
  obtain ⟨hp, hc⟩ := h
  obtain ⟨hlt, hp⟩ := List.pairwise_cons.1 hp
  exact ⟨⟨hp, fun d hd => hc d (List.mem_cons_of_mem c hd)⟩, hlt, (hc c List.mem_cons_self).2⟩

theorem read_cons_self (c : Host.Cell) (m : Memory) : Memory.read (c :: m) c.1 = c.2 := if_pos rfl

theorem read_cons_ne {c : Host.Cell} {a : Nat} (h : c.1 ≠ a) (m : Memory) : Memory.read (c :: m) a = m.read a := if_neg h

/-- A listed address below all addresses of the other memory tells the two apart, since no entry lists a reset byte. -/
theorem read_ne_of_lt_all {c : Host.Cell} {m m' : Memory} (hc : c.2 ≠ resetByte c.1) (hlt : ∀ d ∈ m', c.1 < d.1) :
    Memory.read (c :: m) c.1 ≠ m'.read c.1 := by
  rwa [read_cons_self, read_of_lt_all m' c.1 hlt]

/-- Below the first listed address nothing is listed. -/
theorem lt_all_cons {a : Nat} {c : Host.Cell} {m : Memory} (h : a < c.1) (hlt : ∀ d ∈ m, c.1 < d.1) :
    ∀ d ∈ c :: m, a < d.1 := List.forall_mem_cons.2 ⟨h, fun d hd => h.trans (hlt d hd)⟩

/-- Where the first cells are the same, the rests read the same: at that cell's address both give the reset byte. -/
theorem read_tail_eq {c : Host.Cell} {m m' : Memory} (hlt : ∀ d ∈ m, c.1 < d.1) (hlt' : ∀ d ∈ m', c.1 < d.1)
    (h : ∀ a, Memory.read (c :: m) a = Memory.read (c :: m') a) (a : Nat) : m.read a = m'.read a := by
  by_cases ha : c.1 = a
  · subst ha
    rw [read_of_lt_all m _ hlt, read_of_lt_all m' _ hlt']
  · rw [← read_cons_ne ha m, h, read_cons_ne ha]

/-- Settles O46, by induction on both lists: the first addresses agree, else the lesser one tells the memories apart. -/
theorem canonicalMemoriesAreEqual : Obligations.CanonicalMemoriesAreEqual := by
  intro m
  induction m with
  | nil =>
    rintro (_ | ⟨c', m'⟩) _ hwf' h
    · rfl
    · obtain ⟨_, _, hc'⟩ := wf_of_cons hwf'
      exact absurd (h c'.1).symm (read_ne_of_lt_all hc' (by simp))
  | cons c m ih =>
    rintro (_ | ⟨c', m'⟩) hwf hwf' h
    · obtain ⟨_, _, hc⟩ := wf_of_cons hwf
      exact absurd (h c.1) (read_ne_of_lt_all hc (by simp))
    · obtain ⟨hm, hlt, hc⟩ := wf_of_cons hwf
      obtain ⟨hm', hlt', hc'⟩ := wf_of_cons hwf'
      obtain hlow | haddr | hhigh := Nat.lt_trichotomy c.1 c'.1
      · exact absurd (h c.1) (read_ne_of_lt_all hc (lt_all_cons hlow hlt'))
      · have hbyte := h c.1
        rw [read_cons_self, haddr, read_cons_self] at hbyte
        obtain rfl : c = c' := Prod.ext haddr hbyte
        rw [ih m' hm hm' (read_tail_eq hlt hlt' h)]
      · exact absurd (h c'.1).symm (read_ne_of_lt_all hc' (lt_all_cons hhigh hlt))

/-! ### The stores -/

/-- Memory after LD [I],Vx, address by address (R194). -/
theorem read_writeBytes_registers (s : State) (x : RegIdx) (a : Nat) :
    (s.mem.writeBytes s.i.toNat (s.regsUpTo x)).read a = byteAfterRegisters s x a := by
  rw [read_writeBytes, regsUpTo_length, byteAfterRegisters]
  by_cases h : s.i.toNat ≤ a ∧ a ≤ s.i.toNat + x.val
  · have hr : a - s.i.toNat ≤ x.val := by omega
    have hval : (Fin.ofNat 16 (a - s.i.toNat)).val = a - s.i.toNat := Nat.mod_eq_of_lt (hr.trans_lt x.isLt)
    rw [if_pos h, if_pos (by omega), ← regsUpTo_getD s x _ (Fin.le_def.2 (hval.trans_le hr)), hval]
  · rw [if_neg h, if_neg (by omega)]

theorem read_writeBytes_registers_block (s : State) {x r : RegIdx} (hr : r ≤ x) :
    (s.mem.writeBytes s.i.toNat (s.regsUpTo x)).read (s.i.toNat + r.val) = s.getV r := by
  have hblock : s.i.toNat ≤ s.i.toNat + r.val ∧ s.i.toNat + r.val ≤ s.i.toNat + x.val :=
    ⟨Nat.le_add_right _ _, Nat.add_le_add_left hr _⟩
  rw [read_writeBytes_registers, byteAfterRegisters, if_pos hblock]
  simp

/-- Memory after LD B,Vx, address by address (R193). -/
theorem read_writeBytes_digits (s : State) (x : RegIdx) (a : Nat) :
    (s.mem.writeBytes s.i.toNat (decimalDigits (s.getV x))).read a = byteAfterDigits s x a := by
  rw [read_writeBytes, decimalDigits_length, byteAfterDigits]
  by_cases h : s.i.toNat ≤ a ∧ a < s.i.toNat + 3
  · rw [if_pos h]
    obtain rfl | rfl | rfl : a = s.i.toNat ∨ a = s.i.toNat + 1 ∨ a = s.i.toNat + 2 := by omega
    all_goals simp [decimalDigits]
  · rw [if_neg h, if_neg (by omega), if_neg (by omega), if_neg (by omega)]

theorem exec_ldMemVx_next (x : RegIdx) (h : s.i.toNat + x.val ≤ 0xFFF) :
    exec (.ldMemVx x) s = .next (s.setMem (s.mem.writeBytes s.i.toNat (s.regsUpTo x))) := by
  obtain ⟨hout, _⟩ | ⟨_, e⟩ := execLdMemVx_cases x s
  · exact absurd h (Nat.not_le.2 hout)
  · exact e

theorem exec_ldBVx_next (x : RegIdx) (h : s.i.toNat + 2 ≤ 0xFFF) :
    exec (.ldBVx x) s = .next (s.setMem (s.mem.writeBytes s.i.toNat (decimalDigits (s.getV x)))) := by
  obtain ⟨hout, _⟩ | ⟨_, e⟩ := execLdBVx_cases x s
  · exact absurd h (Nat.not_le.2 hout)
  · exact e

theorem exec_ldVxMem_next (x : RegIdx) (h : s.i.toNat + x.val ≤ 0xFFF) :
    exec (.ldVxMem x) s = .next (s.setVs (s.regsLoaded x s.i.toNat)) := by
  obtain ⟨hout, _⟩ | ⟨_, e⟩ := execLdVxMem_cases x s
  · exact absurd h (Nat.not_le.2 hout)
  · exact e

/-- A step whose handler leaves memory `m` and the advanced PC is followed by a fetch from `m` (R336). -/
theorem step_then_fetch {m : Memory} {f : Nat → Byte} (hs : s.fault = none) (hw : s.fetch = some w)
    (h : Runs (s.addPc 2) (s.advance.setMem m) (decode w)) (hread : ∀ a, m.read a = f a) :
    ∃ t, step s = .next t ∧ t.pc = s.pc + 2 ∧
      (t.pc.toNat ≤ 0xFFE → t.fetch = some (f t.pc.toNat ++ f (t.pc.toNat + 1))) := by
  refine ⟨_, step_of_runs hs hw h, endCycle_pc _, fun hpc => ?_⟩
  rw [fetch_some _ hpc, endCycle_mem, setMem_mem, hread, hread]
  rfl

/-- Settles O47, for both stores by what they leave at each address. -/
theorem storeIsSeenByNextFetch : Obligations.StoreIsSeenByNextFetch := by
  intro s w x hs hw
  refine ⟨fun hd hr => step_then_fetch hs hw ?_ (read_writeBytes_registers s x), fun hd hr =>
    step_then_fetch hs hw ?_ (read_writeBytes_digits s x)⟩
  · rw [hd]
    exact exec_ldMemVx_next (s := s.addPc 2) x hr
  · rw [hd]
    exact exec_ldBVx_next (s := s.addPc 2) x hr

/-- Settles O25: where the load reads, the store had written, and above x nothing is loaded. -/
theorem storeThenLoadRestoresRegisters : Obligations.StoreThenLoadRestoresRegisters := by
  intro x s t b _ h hclear hmem hi
  obtain ⟨hr, e⟩ := not_raised (execLdMemVx_cases x s) h hclear
  obtain rfl := Host.Outcome.next.inj (e.symm.trans h)
  rw [setMem_i] at hi
  rw [setMem_mem] at hmem
  refine ⟨_, exec_ldVxMem_next x (hi ▸ hr), fun r hrx => ?_, fun r hxr => ?_⟩
  · rw [getV_setVs, regsLoaded_get, if_pos hrx, hmem, hi, read_writeBytes_registers_block s hrx]
  · rw [getV_setVs, regsLoaded_get, if_neg (not_le.2 hxr)]

/-! ### Reset -/

theorem font_eq_glyphBytes : font = glyphBytes := rfl

theorem resetByte_outside_font {a : Nat} (h : a < 0x50 ∨ 0x9F < a) : resetByte a = 0 := by
  have hlen : font.length = 80 := rfl
  unfold resetByte
  obtain hlow | hhigh := h
  · exact if_neg (Nat.not_le.2 hlow)
  · rw [if_pos (by simp only [Config.fontBase]; omega), List.getD_eq_default]
    simp only [Config.fontBase, hlen]
    omega

theorem resetByte_font (k : Nat) : resetByte (0x50 + k) = glyphBytes.getD k 0 := by
  rw [resetByte, if_pos (Nat.le_add_right _ _), Nat.add_sub_cancel_left, font_eq_glyphBytes]

/-- Settles O49: no address is listed at reset, so each reads as its reset byte. -/
theorem resetState : Obligations.ResetState :=
  ⟨fun x => by simp [State.reset, State.getV], rfl, rfl, fun j => by simp [State.reset], rfl, rfl, rfl,
    fun _ h => resetByte_outside_font h, fun k _ => resetByte_font k, pix_blank, rfl⟩

/-- Settles O50: the state after the call is the reset state with other inputs. -/
theorem initializeResets : Obligations.InitializeResets := by
  refine fun s => ⟨fun p hp => ?_, rfl, rfl⟩
  cases p
  case session => exact absurd rfl hp
  all_goals exact rfl

/-! ### Loading a program -/

theorem mayLoad_iff (s : State) : s.mayLoad = true ↔ s.phase = .initialized ∧ s.fault = none := by
  simp [State.mayLoad]

/-- The state a successful load leaves (R331). -/
def withProgram (s : State) (bytes : List Byte) : State :=
  { s with mem := s.mem.writeBytes Config.progBase bytes, phase := .loaded }

theorem loadProgram_loaded {bytes : List Byte} (h : s.phase = .initialized ∧ s.fault = none) (hb : bytes.length ≤ 3584) :
    s.loadProgram bytes = .loaded (withProgram s bytes) := by
  have hok : programOk bytes = true := decide_eq_true hb
  rw [State.loadProgram, if_pos ((mayLoad_iff s).2 h), if_pos hok, withProgram]

theorem loadProgram_failure {bytes : List Byte} (h : s.phase = .initialized ∧ s.fault = none)
    (hb : bytes.length > 3584) : s.loadProgram bytes = .loadFailure s := by
  have hok : ¬ programOk bytes = true := fun e => absurd (of_decide_eq_true e) (Nat.not_le.2 hb)
  rw [State.loadProgram, if_pos ((mayLoad_iff s).2 h), if_neg hok]

theorem loadProgram_refused (bytes : List Byte) (h : ¬ (s.phase = .initialized ∧ s.fault = none)) :
    s.loadProgram bytes = .refused .loadOutsideLifecycle := by
  rw [State.loadProgram, if_neg fun hm => h ((mayLoad_iff s).1 hm)]

theorem loadProgram_eq_loaded {bytes : List Byte} (h : s.loadProgram bytes = .loaded t) :
    bytes.length ≤ 3584 ∧ s.fault = none ∧ t = withProgram s bytes := by
  by_cases hm : s.phase = .initialized ∧ s.fault = none
  · obtain hb | hb := le_or_gt bytes.length 3584
    · exact ⟨hb, hm.2, (LoadResult.loaded.inj ((loadProgram_loaded hm hb).symm.trans h)).symm⟩
    · cases (loadProgram_failure hm hb).symm.trans h
  · cases (loadProgram_refused bytes hm).symm.trans h

theorem withProgram_frame (s : State) (bytes : List Byte) :
    OnlyChanges (fun p => p = .session ∨ ∃ k, k < bytes.length ∧ p = .byte (0x200 + k)) s (withProgram s bytes) := by
  intro p hp
  cases p
  case session => exact absurd (.inl rfl) hp
  case byte a => exact setMem_writeBytes_frame s 0x200 rfl (.byte a) fun h => hp (.inr h)
  all_goals exact rfl

theorem read_withProgram (s : State) (bytes : List Byte) (k : Nat) (h : k < bytes.length) :
    (withProgram s bytes).mem.read (0x200 + k) = bytes[k] := by
  simp [withProgram, read_writeBytes, h]

/-- After a step the session is running or a fault is latched (R332). -/
theorem not_mayLoad_of_step (h : step s = .next t) : ¬ (t.phase = .initialized ∧ t.fault = none) := by
  rintro ⟨hp, hf⟩
  obtain ⟨hh, rfl⟩ | ⟨_, _, rfl⟩ | ⟨w, u, _, _, _, rfl⟩ := step_cases s t h
  · simp [hf] at hh
  · cases hf
  · rw [endCycle_fault] at hf
    rw [endCycle_running u hf] at hp
    cases hp

/-- Settles O51, by what a load answers in each phase. -/
theorem loadProgramCopiesOrFails : Obligations.LoadProgramCopiesOrFails := by
  refine ⟨fun s bytes hp hf hb => ?_, fun s bytes hp hf hb => loadProgram_failure ⟨hp, hf⟩ hb,
    fun s t bytes h => loadProgram_refused bytes (not_mayLoad_of_step h), fun s bytes hb =>
    ⟨⟨_, loadProgram_loaded ⟨rfl, rfl⟩ hb⟩, _, loadProgram_loaded ⟨rfl, rfl⟩ hb⟩⟩
  exact ⟨withProgram s bytes, loadProgram_loaded ⟨hp, hf⟩ hb, read_withProgram s bytes, withProgram_frame s bytes,
    fun more => loadProgram_refused more fun h => nomatch h.1⟩

/-! ### The base cases of the invariant -/

theorem inv_reset (l : List StepInput) (n : Nat) : ({ State.reset with inputs := l, tick := n } : State).Inv where
  memory := wf_nil
  stackPointer := Nat.zero_le 16
  returnAddress := fun j => by simp [State.reset]
  programCounter := (by decide : (0x200 : Word).toNat ≤ 0x10FE)
  latch := fun _ h => nomatch h

theorem inv_withProgram {bytes : List Byte} (hinv : s.Inv) (hf : s.fault = none) (hb : bytes.length ≤ 3584) :
    (withProgram s bytes).Inv where
  memory := wf_writeBytes bytes s.mem _ hinv.memory (.inr (by simp only [Config.progBase]; omega))
  stackPointer := hinv.stackPointer
  returnAddress := hinv.returnAddress
  programCounter := hinv.programCounter
  latch := fun _ h => nomatch hf.symm.trans h

/-- Settles O52. -/
theorem resetAndLoadMeetInvariant : Obligations.ResetAndLoadMeetInvariant := by
  refine ⟨inv_reset [] 0, fun s => inv_reset s.inputs s.tick, fun s t bytes hinv h => ?_⟩
  obtain ⟨hb, hf, rfl⟩ := loadProgram_eq_loaded h
  exact inv_withProgram hinv hf hb

end Sys2Proof.Proofs
end

section
/-! The framebuffer (spec/44_display.md R220-R222): DRW as a toggle of a list of distinct pixels, and its closed form. -/

open Sys2Proof Sys2Proof.Machine Sys2Proof.Statements

namespace Sys2Proof.Proofs

variable {s t : State}

/-! ### Toggling a list of pixels -/

/-- Toggle the listed pixels, one after the other, collecting collisions. -/
def toggleAll (l : List (Fin 64 × Fin 32)) (p : Draw) : Draw := l.foldl (fun q a => drawPixel a.1 a.2 q) p

theorem pix_drawPixel (x px : Fin 64) (y py : Fin 32) (p : Draw) :
    (drawPixel x y p).display.pix px py = if (px, py) = (x, y) then !p.display.pix px py else p.display.pix px py := by
  simp only [drawPixel, pix_toggle, Prod.mk.injEq]

/-- Over distinct pixels each listed one toggles once, and no other. -/
theorem pix_toggleAll {l : List (Fin 64 × Fin 32)} (hl : l.Nodup) (p : Draw) (px : Fin 64) (py : Fin 32) :
    (toggleAll l p).display.pix px py = if (px, py) ∈ l then !p.display.pix px py else p.display.pix px py := by
  induction l generalizing p with
  | nil => rfl
  | cons a l ih =>
    obtain ⟨ha, hl⟩ := List.nodup_cons.1 hl
    rw [toggleAll, List.foldl_cons, ← toggleAll, ih hl, pix_drawPixel]
    by_cases hpa : (px, py) = a
    · subst hpa
      simp [ha]
    · simp [hpa]

/-- Over distinct pixels each one is still as it was at the start when its turn comes, so a collision is a listed pixel
that was on. -/
theorem collision_toggleAll {l : List (Fin 64 × Fin 32)} (hl : l.Nodup) (p : Draw) :
    (toggleAll l p).collision = true ↔ p.collision = true ∨ ∃ a ∈ l, p.display.pix a.1 a.2 = true := by
  induction l generalizing p with
  | nil => simp [toggleAll]
  | cons a l ih =>
    obtain ⟨ha, hl⟩ := List.nodup_cons.1 hl
    have hkept : ∀ b ∈ l, (drawPixel a.1 a.2 p).display.pix b.1 b.2 = p.display.pix b.1 b.2 := fun b hb => by
      rw [pix_drawPixel, if_neg fun e : b = a => ha (e ▸ hb)]
    rw [toggleAll, List.foldl_cons, ← toggleAll, ih hl, List.exists_mem_cons_iff, ← or_assoc]
    refine or_congr (by simp [drawPixel]) (exists_congr fun b => and_congr_right fun hb => by rw [hkept b hb])

/-! ### The pixels of a sprite -/

/-- The pixels the 1 bits of one sprite row land on. -/
def rowPixels (x0 : Nat) (y : Fin 32) (b : Byte) : List (Fin 64 × Fin 32) :=
  ((List.range 8).filter fun c => spriteBit b c).map fun c => (Fin.ofNat 64 (x0 + c), y)

/-- The pixels the 1 bits of a sprite land on, row by row. -/
def spritePixels (m : Memory) (base x0 y0 n : Nat) : List (Fin 64 × Fin 32) :=
  (List.range n).flatMap fun r => rowPixels x0 (Fin.ofNat 32 (y0 + r)) (m.read (base + r))

theorem drawRow_eq_toggleAll (x0 : Nat) (y : Fin 32) (b : Byte) (p : Draw) :
    drawRow x0 y b p = toggleAll (rowPixels x0 y b) p := by
  rw [drawRow, toggleAll, rowPixels, List.foldl_map, List.foldl_filter]

theorem drawSprite_eq_toggleAll (m : Memory) (base x0 y0 n : Nat) (p : Draw) :
    drawSprite m base x0 y0 n p = toggleAll (spritePixels m base x0 y0 n) p := by
  simp only [drawSprite, toggleAll, spritePixels, List.foldl_flatMap, drawRow_eq_toggleAll]

theorem mem_rowPixels {x0 : Nat} {y : Fin 32} {b : Byte} {a : Fin 64 × Fin 32} :
    a ∈ rowPixels x0 y b ↔ ∃ c < 8, spriteBit b c = true ∧ a = (Fin.ofNat 64 (x0 + c), y) := by
  simp only [rowPixels, List.mem_map, List.mem_filter, List.mem_range, and_assoc, eq_comm (a := a)]

/-- Eight columns from one origin are distinct modulo 64. -/
theorem nodup_rowPixels (x0 : Nat) (y : Fin 32) (b : Byte) : (rowPixels x0 y b).Nodup := by
  refine List.Nodup.map_on (fun c hc c' hc' h => ?_) (List.nodup_range.filter _)
  have h8 := List.mem_range.1 (List.mem_of_mem_filter hc)
  have h8' := List.mem_range.1 (List.mem_of_mem_filter hc')
  have hmod : (x0 + c) % 64 = (x0 + c') % 64 := congrArg (fun a => a.1.val) h
  omega

/-- Fewer than 32 rows from one origin are distinct modulo 32. -/
theorem nodup_spritePixels (m : Memory) (base x0 y0 : Nat) (n : Fin 16) : (spritePixels m base x0 y0 n).Nodup := by
  refine List.nodup_flatMap.2 ⟨fun r _ => nodup_rowPixels _ _ _, ?_⟩
  refine List.Pairwise.imp_of_mem (fun {r r'} hr hr' hne a ha ha' => ?_) List.nodup_range
  obtain ⟨_, _, _, rfl⟩ := mem_rowPixels.1 ha
  obtain ⟨_, _, _, heq⟩ := mem_rowPixels.1 ha'
  have hn := n.isLt
  have hr := List.mem_range.1 hr
  have hr' := List.mem_range.1 hr'
  have hmod : (y0 + r) % 32 = (y0 + r') % 32 := congrArg (fun a => a.2.val) heq
  omega

/-- The pixels DRW toggles are the ones the sprite covers. -/
theorem mem_spritePixels_iff (s : State) (x y : RegIdx) (n : Nat) (px : Fin 64) (py : Fin 32) :
    (px, py) ∈ spritePixels s.mem s.i.toNat ((s.getV x).toNat % 64) ((s.getV y).toNat % 32) n ↔
      SpriteCovers s x y n px py := by
  simp only [spritePixels, List.mem_flatMap, List.mem_range, mem_rowPixels, Prod.mk.injEq, Fin.ext_iff, Fin.val_ofNat,
    spriteBit, SpriteCovers]
  constructor
  · rintro ⟨r, hr, c, hc, hb, hx, hy⟩
    exact ⟨r, c, hr, hc, hb, hx, hy⟩
  · rintro ⟨r, c, hr, hc, hb, hx, hy⟩
    exact ⟨r, hr, c, hc, hb, hx, hy⟩

/-! ### DRW in closed form -/

theorem pix_drawn_of_covers {x y : RegIdx} {n : Fin 16} {px : Fin 64} {py : Fin 32} (h : SpriteCovers s x y n px py) :
    (s.drawn x y n).display.pix px py = !s.display.pix px py := by
  rw [State.drawn, drawSprite_eq_toggleAll, pix_toggleAll (nodup_spritePixels _ _ _ _ n),
    if_pos ((mem_spritePixels_iff s x y n px py).2 h)]

theorem pix_drawn_of_not_covers {x y : RegIdx} {n : Fin 16} {px : Fin 64} {py : Fin 32}
    (h : ¬ SpriteCovers s x y n px py) : (s.drawn x y n).display.pix px py = s.display.pix px py := by
  rw [State.drawn, drawSprite_eq_toggleAll, pix_toggleAll (nodup_spritePixels _ _ _ _ n),
    if_neg (mt (mem_spritePixels_iff s x y n px py).1 h)]

theorem collision_drawn (s : State) (x y : RegIdx) (n : Fin 16) :
    (s.drawn x y n).collision = true ↔ ∃ px py, SpriteCovers s x y n px py ∧ s.display.pix px py = true := by
  rw [State.drawn, drawSprite_eq_toggleAll, collision_toggleAll (nodup_spritePixels _ _ _ _ n)]
  simp only [Bool.false_eq_true, false_or, Prod.exists, mem_spritePixels_iff]

theorem exec_drw_next (x y : RegIdx) (n : Fin 16) (h : n.val = 0 ∨ s.i.toNat + n.val - 1 ≤ 0xFFF) :
    exec (.drw x y n) s = .next ((s.setDisplay (s.drawn x y n).display).setVF (s.drawn x y n).collision) := by
  obtain ⟨hout, _⟩ | ⟨_, _, e⟩ := execDrw_cases x y n s
  · omega
  · exact e

/-- Settles O27, with each pixel and the flag read off the list of toggled pixels. -/
theorem drawTogglesCoveredPixels : Obligations.DrawTogglesCoveredPixels := by
  refine ⟨fun w hw => by simp [decode, opField, hw], fun x y n s h => ⟨_, exec_drw_next x y n h, fun _ _ =>
    pix_drawn_of_covers, fun _ _ => pix_drawn_of_not_covers, fun hon => ?_, fun hoff => ?_, drw_frame s _ _⟩⟩
  · rw [getV_setVF, if_pos rfl, (collision_drawn s x y n).2 hon]
    rfl
  · have hno : (s.drawn x y n).collision = false := Bool.eq_false_iff.2 fun hc => by
      obtain ⟨px, py, hcov, hon⟩ := (collision_drawn s x y n).1 hc
      simp [hoff px py hcov] at hon
    rw [getV_setVF, if_pos rfl, hno]
    rfl

/-- Settles O28. -/
theorem drawOutOfRangeFaults : Obligations.DrawOutOfRangeFaults := by
  intro x y n s hn hr
  obtain ⟨_, e⟩ | ⟨hin, _⟩ := execDrw_cases x y n s
  · exact faults_of_raise e
  · exact absurd ⟨hn, hr⟩ hin

/-! ### Drawing twice -/

/-- A draw leaves the sprite and, unless a coordinate is VF, the place it is drawn at. -/
theorem spriteCovers_of_frame {x y : RegIdx} {n : Nat} (hx : x ≠ vF) (hy : y ≠ vF)
    (hfr : OnlyChanges (fun p => p = .reg vF ∨ ∃ px py, p = .pixel px py) s t) (px : Fin 64) (py : Fin 32) :
    SpriteCovers t x y n px py ↔ SpriteCovers s x y n px py := by
  have hi : t.i = s.i := hfr .index (by simp)
  have hvx : t.getV x = s.getV x := hfr (.reg x) (by simp [hx])
  have hvy : t.getV y = s.getV y := hfr (.reg y) (by simp [hy])
  have hm : ∀ a, t.mem.read a = s.mem.read a := fun a => hfr (.byte a) (by simp)
  simp only [SpriteCovers, hi, hvx, hvy, hm]

/-- A sprite with a 1 bit covers some pixel. -/
theorem exists_spriteCovers {x y : RegIdx} {n r c : Nat} (hr : r < n) (hc : c < 8)
    (hb : (s.mem.read (s.i.toNat + r)).getLsbD c = true) : ∃ px py, SpriteCovers s x y n px py := by
  refine ⟨Fin.ofNat 64 ((s.getV x).toNat % 64 + (7 - c)), Fin.ofNat 32 ((s.getV y).toNat % 32 + r), r, 7 - c, hr,
    by omega, ?_, rfl, rfl⟩
  rwa [Nat.sub_sub_self (Nat.le_of_lt_succ hc)]

/-- Settles O29: the second draw covers the same pixels, each of which the first one toggled. -/
theorem drawTwiceRestoresDisplay : Obligations.DrawTwiceRestoresDisplay := by
  intro x y n s hx hy hr
  obtain ⟨_, hdraw⟩ := drawTogglesCoveredPixels
  obtain ⟨t, ht, hcov, hout, hon, hoff, hfr⟩ := hdraw x y n s hr
  have hi : t.i = s.i := hfr .index (by simp)
  obtain ⟨u, hu, hcov', hout', hon', hoff', _⟩ := hdraw x y n t (hi ▸ hr)
  simp only [spriteCovers_of_frame hx hy hfr] at hcov' hout' hon' hoff'
  have hsecond : (∃ px py, SpriteCovers s x y n px py ∧ s.display.pix px py = false) → u.getV vF = 1 := by
    rintro ⟨px, py, hc, hp⟩
    exact hon' ⟨px, py, hc, by rw [hcov px py hc, hp]; rfl⟩
  refine ⟨t, u, ht, hu, display_ext _ _ fun px py => ?_, hsecond, fun hall => ?_, fun hclear => ⟨?_, ?_⟩⟩
  · by_cases hc : SpriteCovers s x y n px py
    · rw [hcov' px py hc, hcov px py hc, Bool.not_not]
    · rw [hout' px py hc, hout px py hc]
  · exact hoff' fun px py hc => by rw [hcov px py hc, hall px py hc]; rfl
  · exact hoff fun px py _ => hclear px py
  · rintro ⟨r, c, hr, hc, hb⟩
    obtain ⟨px, py, hcov⟩ := exists_spriteCovers (x := x) (y := y) hr hc hb
    exact hsecond ⟨px, py, hcov, hclear px py⟩

end Sys2Proof.Proofs
end

section
/-! What the outcome of an instruction depends on (spec/20_memory.md R59, spec/10_state.md R33): an instruction run on a state
with other memory and other inputs, which agree where it reads them, answers as before but for these. -/

open Sys2Proof Sys2Proof.Machine Sys2Proof.Statements

namespace Sys2Proof.Proofs

variable {s t : State}

/-- A byte that differs after the execute phase is one the instruction's rule stores (R59). -/
theorem writesByte_of_read_ne {i : Instr} {a : Nat} (h : exec i s = .next t) (hne : t.mem.read a ≠ s.mem.read a) :
    writesByte s i a := by
  obtain ⟨_, _, _, rfl⟩ | ⟨_, _, _, hfr⟩ := exec_next_cases h
  · exact absurd rfl hne
  · have hw : writes s i (.byte a) := not_imp_comm.1 (hfr (.byte a)) hne
    cases i
    case ldBVx x =>
      obtain ⟨k, hk, e⟩ := hw
      obtain rfl := Part.byte.inj e
      exact ⟨Nat.le_add_right _ _, Nat.add_le_add_left (Nat.le_of_lt_succ hk) _⟩
    case ldMemVx x =>
      obtain ⟨k, hk, e⟩ := hw
      obtain rfl := Part.byte.inj e
      exact ⟨Nat.le_add_right _ _, Nat.add_le_add_left hk _⟩
    all_goals simp [writes] at hw

/-! ### Outcomes carried along a change of memory and inputs -/

/-- The state with other memory, other inputs to come and another counter. -/
def withOutside (m : Memory) (l : List StepInput) (n : Nat) (s : State) : State := { s with mem := m, inputs := l, tick := n }

section

variable (m : Memory) (l : List StepInput) (n : Nat) (s : State)

theorem withOutside_stack : (withOutside m l n s).stack = s.stack := rfl
theorem withOutside_sp : (withOutside m l n s).sp = s.sp := rfl
theorem getV_withOutside (r : RegIdx) : (withOutside m l n s).getV r = s.getV r := rfl

theorem skipIf_withOutside (b : Bool) : (withOutside m l n s).skipIf b = withOutside m l n (s.skipIf b) := by
  cases b <;> rfl

end

/-- The outcome with its next state changed by `f`. -/
def mapNext (f : State → State) : Host.Outcome State Fault Refusal → Host.Outcome State Fault Refusal
  | .next t => .next (f t)
  | .fault r => .fault r
  | .refused r => .refused r

/-- A check that gives the same on both states carries the change along if both branches do. -/
theorem ite_eq_mapNext {f : State → State} {p q : Prop} [Decidable p] [Decidable q]
    {a b a' b' : Host.Outcome State Fault Refusal} (hpq : p ↔ q) (ha : a' = mapNext f a) (hb : b' = mapNext f b) :
    (if p then a' else b') = mapNext f (if q then a else b) := by
  subst ha hb
  rw [apply_ite (mapNext f)]
  exact if_congr hpq rfl rfl

/-- `exec` answers next states and refusals only, so changing the next state leaves an outcome that agrees but for the
change. -/
theorem agreeBut_mapNext {but : Part → Prop} {f : State → State} (i : Instr) (s : State)
    (hf : ∀ t, exec i s = .next t → OnlyChanges but t (f t)) : AgreeBut but (exec i s) (mapNext f (exec i s)) := by
  obtain ⟨c, n, _, e⟩ | ⟨t, _, e, _, _⟩ | ⟨_, e⟩ := exec_answer i s
  · exact .inl ⟨_, _, e, congrArg (mapNext f) e, hf _ e⟩
  · exact .inl ⟨_, _, e, congrArg (mapNext f) e, hf _ e⟩
  · exact .inr ⟨_, e, congrArg (mapNext f) e⟩

/-- Registers loaded from memories that agree on the bytes read are the same. -/
theorem regsLoaded_withOutside {m : Memory} {l : List StepInput} {n : Nat} {x : RegIdx} {base : Nat}
    (h : ∀ a, base ≤ a ∧ a ≤ base + x.val → m.read a = s.mem.read a) :
    (withOutside m l n s).regsLoaded x base = s.regsLoaded x base := by
  unfold State.regsLoaded
  congr 1
  funext r
  split
  next hrx => exact h _ ⟨Nat.le_add_right _ _, Nat.add_le_add_left hrx _⟩
  next => rfl

/-- A sprite drawn from memories that agree on its bytes is the same. -/
theorem drawSprite_congr {m m' : Memory} {base n : Nat} (h : ∀ a, base ≤ a ∧ a < base + n → m.read a = m'.read a)
    (x0 y0 : Nat) (p : Draw) : drawSprite m base x0 y0 n p = drawSprite m' base x0 y0 n p :=
  List.foldl_ext _ _ p fun q r hr => by
    rw [h _ ⟨Nat.le_add_right _ _, Nat.add_lt_add_left (List.mem_range.1 hr) _⟩]

section

variable {i : Instr} {m : Memory} {l : List StepInput} {n : Nat}
  (hr : ∀ a, readsByte s i a → m.read a = s.mem.read a) (hin : usesInput i → (withOutside m l n s).input = s.input)
include hr hin

/-- An instruction that stores nothing carries the memory and the inputs along unchanged. -/
theorem exec_withOutside (hst : ∀ a, ¬ writesByte s i a) :
    exec i (withOutside m l n s) = mapNext (withOutside m l n) (exec i s) := by
  cases i
  case ldBVx x => exact absurd ⟨le_rfl, Nat.le_add_right _ _⟩ (hst s.i.toNat)
  case ldMemVx x => exact absurd ⟨le_rfl, Nat.le_add_right _ _⟩ (hst s.i.toNat)
  case ret =>
    simp only [exec, execRet, withOutside_sp, withOutside_stack]
    refine ite_eq_mapNext Iff.rfl rfl ?_
    split <;> rfl
  case call nnn =>
    simp only [exec, execCall]
    refine ite_eq_mapNext Iff.rfl rfl ?_
    rw [apply_dite (mapNext (withOutside m l n))]
    rfl
  case drw x y k =>
    have hdrawn : (withOutside m l n s).drawn x y k = s.drawn x y k := drawSprite_congr hr _ _ _
    refine ite_eq_mapNext Iff.rfl ?_ rfl
    exact congrArg (fun p : Draw => Host.Outcome.next (((withOutside m l n s).setDisplay p.display).setVF p.collision)) hdrawn
  case ldVxMem x =>
    refine ite_eq_mapNext Iff.rfl ?_ rfl
    exact congrArg (fun vs => Host.Outcome.next ((withOutside m l n s).setVs vs)) (regsLoaded_withOutside hr)
  case skp x =>
    simp only [exec, execSkp, State.keyOperand, hin trivial, getV_withOutside, skipIf_withOutside]
    split <;> rfl
  case sknp x =>
    simp only [exec, execSknp, State.keyOperand, hin trivial, getV_withOutside, skipIf_withOutside]
    split <;> rfl
  case ldVxK x =>
    simp only [exec, execLdVxK, hin trivial]
    split <;> rfl
  case rnd x kk =>
    simp only [exec, execRnd, hin trivial]
    rfl
  case seVxKk | sneVxKk | seVxVy | sneVxVy => exact congrArg Host.Outcome.next (skipIf_withOutside m l n s _)
  all_goals rfl

end

/-! ### Agreement of two runs -/

section

variable {but : Part → Prop} {i : Instr} {m m' : Memory} {l : List StepInput} {n : Nat}
  (h : OnlyChanges but s (withOutside m l n s))
include h

/-- A changed memory or changed inputs stay the only difference after an update that leaves the model's own fields alone and
memories that agree where they did. -/
theorem onlyChanges_withOutside (hself : t.inputs = s.inputs ∧ t.tick = s.tick ∧ t.phase = s.phase)
    (hm : ∀ a, m.read a = s.mem.read a → m'.read a = t.mem.read a) : OnlyChanges but t (withOutside m' l n t) := by
  obtain ⟨hi, hk, _⟩ := hself
  intro p hp
  cases p
  case byte a => exact hm a (h (.byte a) hp)
  case session =>
    obtain ⟨hl, hn, _⟩ := h .session hp
    exact ⟨Eq.trans hl hi.symm, Eq.trans hn hk.symm, rfl⟩
  all_goals exact rfl

/-- Bytes stored over memories that agree at an address agree there again. -/
theorem agreeBut_of_stores {o o' : Host.Outcome State Fault Refusal} (base : Nat) (bs : List Byte)
    (e : o = .next (s.setMem (s.mem.writeBytes base bs)))
    (e' : o' = .next ((withOutside m l n s).setMem (m.writeBytes base bs))) : AgreeBut but o o' :=
  .inl ⟨_, _, e, e', onlyChanges_withOutside h (t := s.setMem (s.mem.writeBytes base bs)) ⟨rfl, rfl, rfl⟩
    fun a ha => by rw [setMem_mem, read_writeBytes, read_writeBytes, ha]⟩

theorem agreeBut_of_raises {o o' : Host.Outcome State Fault Refusal} {c : Fault} {k : Nat} (e : o = raise c k s)
    (e' : o' = raise c k (withOutside m l n s)) : AgreeBut but o o' :=
  .inl ⟨_, _, e, e', onlyChanges_withOutside h (t := s.backPc.latchFault c k) ⟨rfl, rfl, rfl⟩ fun _ ha => ha⟩

/-- The two runs agree but for what differs between the states, if these agree where the instruction reads them. -/
theorem exec_agreeBut (hr : ∀ a, readsByte s i a → m.read a = s.mem.read a)
    (hin : usesInput i → (withOutside m l n s).input = s.input) :
    AgreeBut but (exec i s) (exec i (withOutside m l n s)) := by
  by_cases hst : ∀ a, ¬ writesByte s i a
  · rw [exec_withOutside hr hin hst]
    refine agreeBut_mapNext i s fun t ht => onlyChanges_withOutside h ?_ fun a ha => ?_
    · obtain ⟨hself, _⟩ := exec_latchOrKeep i s t ht
      exact hself
    · exact ha.trans (not_imp_comm.1 (writesByte_of_read_ne ht) (hst a)).symm
  · cases i
    case ldBVx x =>
      obtain ⟨hx, e⟩ | ⟨hx, e⟩ := execLdBVx_cases x s
      · obtain ⟨_, e'⟩ | ⟨hx', _⟩ := execLdBVx_cases x (withOutside m l n s)
        · exact agreeBut_of_raises h e e'
        · exact absurd hx (Nat.not_lt.2 hx')
      · exact agreeBut_of_stores h _ _ e (exec_ldBVx_next (s := withOutside m l n s) x hx)
    case ldMemVx x =>
      obtain ⟨hx, e⟩ | ⟨hx, e⟩ := execLdMemVx_cases x s
      · obtain ⟨_, e'⟩ | ⟨hx', _⟩ := execLdMemVx_cases x (withOutside m l n s)
        · exact agreeBut_of_raises h e e'
        · exact absurd hx (Nat.not_lt.2 hx')
      · exact agreeBut_of_stores h _ _ e (exec_ldMemVx_next (s := withOutside m l n s) x hx)
    all_goals exact absurd (fun _ => id) hst

end

/-- Settles O44: the inputs and the counter are the model's own fields, and no byte differs. -/
theorem inputsReachOnlyTheirReaders : Obligations.InputsReachOnlyTheirReaders := by
  intro i s l n hi
  have h : OnlyChanges (· = .session) s (withOutside s.mem l n s) := by
    intro p hp
    cases p
    case session => exact absurd rfl hp
    all_goals exact rfl
  exact exec_agreeBut h (fun _ _ => rfl) fun hu => absurd hu hi

/-- Settles O43: the bytes written are those of the rule, and with another memory the inputs are the same. -/
theorem memoryIsReachedOnlyAsListed : Obligations.MemoryIsReachedOnlyAsListed := by
  refine ⟨fun i s t a => writesByte_of_read_ne, fun i s m hr => ?_, fun s m hlo hhi => ?_⟩
  · have h : OnlyChanges (fun p => ∃ a, p = .byte a) s (withOutside m s.inputs s.tick s) := by
      intro p hp
      cases p
      case byte a => exact absurd ⟨a, rfl⟩ hp
      case session => exact ⟨rfl, rfl, rfl⟩
      all_goals exact rfl
    exact exec_agreeBut h hr fun _ => rfl
  · simp only [State.fetch, setMem_pc, setMem_mem, hlo, hhi]

end Sys2Proof.Proofs
end

section
/-! One instruction after the other (spec/41 to spec/45): the words that reach it, what it leaves, and its frame. -/

open Sys2Proof Sys2Proof.Machine Sys2Proof.Statements

namespace Sys2Proof.Proofs

variable {i : Instr} {s : State}

/-! ### The shapes of an instruction's rule -/

theorem writesReg_of_setV {x : RegIdx} {b : Byte} (h : exec i s = .next (s.setV x b)) : WritesReg i s x b :=
  ⟨_, h, getV_setV_same s x b, setV_frame s x b⟩

theorem writesResultAndFlag_of_set {x : RegIdx} {b : Byte} {r : Nat} {f flag : Bool}
    (h : exec i s = .next (s.setResultAndFlag x b f)) (hr : b.toNat = r) (hf : f = flag) :
    WritesResultAndFlag i s x r flag := by
  subst hr hf
  refine ⟨_, h, ?_, fun hx => ?_, setResultAndFlag_frame s x b f⟩
  · rw [getV_setResultAndFlag, if_pos rfl, flagByte_toNat]
  · rw [getV_setResultAndFlag, if_neg hx, if_pos rfl]

theorem skipsIf_of_skipIf {b : Bool} {taken : Prop} (h : exec i s = .next (s.skipIf b)) (hb : b = true ↔ taken) :
    SkipsIf i s taken :=
  ⟨_, h, fun ht => by rw [skipIf_pc, if_pos (hb.2 ht)], fun ht => by rw [skipIf_pc, if_neg (mt hb.1 ht)],
    skipIf_frame s b⟩

/-! ### Control transfer and skips -/

theorem exec_ret_next (hlo : 1 ≤ s.sp.toNat) (hhi : s.sp.toNat ≤ 16) :
    exec .ret s = .next ((s.setSp (s.sp - 1)).setPc s.stack[s.sp.toNat - 1]) := by
  obtain ⟨hempty, _⟩ | ⟨_, _, e⟩ | ⟨hill, _⟩ := execRet_cases s
  · omega
  · exact e
  · omega

theorem exec_call_next (nnn : Addr) (h : s.sp.toNat < 16) : exec (.call nnn) s =
    .next (((s.setStack (s.stack.set s.sp.toNat s.pc h)).setSp (s.sp + 1)).setPc (addrOperand nnn)) := by
  obtain ⟨hfull, _⟩ | ⟨_, e⟩ | ⟨hill, _⟩ := execCall_cases nnn s
  · omega
  · exact e
  · omega

/-- Settles O6. -/
theorem retPopsReturnAddress : Obligations.RetPopsReturnAddress := by
  refine ⟨fun w h hn => by simp [decode, decodeFamily0, opField, h, hn], fun s => ⟨fun h0 => ?_, fun hlo hhi => ?_, fun hsp => ?_⟩⟩
  · obtain ⟨_, e⟩ | ⟨⟨hlo, _⟩, _⟩ | ⟨hill, _⟩ := execRet_cases s
    · exact faults_of_raise e
    · omega
    · omega
  · refine ⟨_, exec_ret_next hlo hhi, ?_, fun j hj => ?_, ret_frame _ _ _⟩
    · simp only [setPc_sp, setSp_sp]
      bv_omega
    · simp [← hj]
  · obtain ⟨h0, _⟩ | ⟨⟨_, hhi⟩, _⟩ | ⟨_, e⟩ := execRet_cases s
    · omega
    · omega
    · exact e

/-- Settles O7. -/
theorem jpSetsPc : Obligations.JpSetsPc := by
  refine ⟨fun w h => by simp [decode, opField, h], fun nnn s => ⟨_, rfl, addrOperand_toNat nnn, setPc_frame s _,
    fun hpc => ?_, ?_⟩⟩
  · apply BitVec.eq_of_toNat_eq
    have := nnn.isLt
    rw [setPc_pc, addrOperand_toNat]
    bv_omega
  · rintro rfl hs
    exact ⟨_, step_fetchFault _ hs (fetch_none _ (by rw [setPc_pc]; decide)), rfl⟩

/-- Settles O8. -/
theorem callPushesReturnAddress : Obligations.CallPushesReturnAddress := by
  refine ⟨fun w h => by simp [decode, opField, h], fun nnn s => ⟨fun hfull => ?_, fun hsp => ?_, fun hsp => ?_⟩⟩
  · obtain ⟨_, e⟩ | ⟨hlt, _⟩ | ⟨hill, _⟩ := execCall_cases nnn s
    · exact faults_of_raise e
    · omega
    · omega
  · refine ⟨_, exec_call_next nnn hsp, addrOperand_toNat nnn, ?_, fun j hj => by simp [hj],
      call_frame s _ _ hsp⟩
    simp only [setPc_sp, setSp_sp]
    bv_omega
  · obtain ⟨hfull, _⟩ | ⟨hlt, _⟩ | ⟨_, e⟩ := execCall_cases nnn s
    · omega
    · omega
    · exact e

/-- Settles O12: the entry RET pops is the one CALL pushed. -/
theorem callThenRetReturns : Obligations.CallThenRetReturns := by
  intro nnn s t b hsp h hbsp hbstack
  obtain rfl := Host.Outcome.next.inj ((exec_call_next nnn hsp).symm.trans h)
  rw [setPc_sp, setSp_sp] at hbsp
  rw [setPc_stack, setSp_stack, setStack_stack] at hbstack
  have hval : b.sp.toNat = s.sp.toNat + 1 := by rw [hbsp]; bv_omega
  refine ⟨_, exec_ret_next (by omega) (by omega), ?_, ?_, ret_frame _ _ _⟩
  · simp [hbstack, hval]
  · rw [setPc_sp, setSp_sp, hbsp, BitVec.add_sub_cancel]

/-- Settles O9. -/
theorem skipsOnImmediate : Obligations.SkipsOnImmediate :=
  ⟨fun w => ⟨fun h => by simp [decode, opField, h], fun h => by simp [decode, opField, h]⟩, fun x kk s =>
    ⟨skipsIf_of_skipIf rfl (by simp [BitVec.toNat_inj]), skipsIf_of_skipIf rfl (by simp [BitVec.toNat_inj])⟩⟩

/-- Settles O10. -/
theorem skipsOnRegisters : Obligations.SkipsOnRegisters :=
  ⟨fun w => ⟨fun h => by simp [decode, opField, h], fun h => by simp [decode, opField, h]⟩, fun x y s =>
    ⟨skipsIf_of_skipIf rfl (by simp [BitVec.toNat_inj]), skipsIf_of_skipIf rfl (by simp [BitVec.toNat_inj]),
      skipsIf_of_skipIf rfl (by simp), skipsIf_of_skipIf rfl (by simp)⟩⟩

/-- Settles O11: a 12-bit address and a byte add up to at most 0x10FE. -/
theorem jpV0AddsV0 : Obligations.JpV0AddsV0 := by
  refine ⟨fun w h => by simp [decode, opField, h], fun nnn s => ?_⟩
  have hn := nnn.isLt
  have hv := (s.getV v0).isLt
  have hsum : (addByte (addrOperand nnn) (s.getV v0)).toNat = nnn.toNat + (s.getV v0).toNat := by
    rw [addByte_toNat, addrOperand_toNat]
    omega
  exact ⟨_, rfl, hsum, hsum.trans_le (by omega), setPc_frame s _, fetch_none _⟩

/-! ### Register loads, arithmetic, logic, shifts and RND -/

/-- Settles O13. -/
theorem loadAndAddImmediate : Obligations.LoadAndAddImmediate :=
  ⟨fun w => ⟨fun h => by simp [decode, opField, h], fun h => by simp [decode, opField, h]⟩, fun x kk s =>
    ⟨writesReg_of_setV rfl, s.getV x + kk, BitVec.toNat_add _ _, writesReg_of_setV rfl⟩⟩

/-- Settles O14: with x = y the register is written with its own value. -/
theorem copyRegister : Obligations.CopyRegister := by
  refine ⟨fun w h hn => by simp [decode, decodeFamily8, opField, h, hn], fun x y s =>
    ⟨writesReg_of_setV rfl, _, rfl, fun p _ => ?_⟩⟩
  by_cases hp : p = .reg x
  · subst hp
    exact getV_setV_same s x (s.getV x)
  · exact setV_frame s x _ p hp

/-- The results of AND and XOR are equal exactly on two zeros (R156). -/
theorem and_eq_xor_iff (a b : Byte) : a &&& b = a ^^^ b ↔ a = 0 ∧ b = 0 := by
  constructor
  · intro h
    have hbit : ∀ k, a.getLsbD k = false ∧ b.getLsbD k = false := fun k => by
      have hk := congrArg (·.getLsbD k) h
      simp only [BitVec.getLsbD_and, BitVec.getLsbD_xor] at hk
      cases ha : a.getLsbD k <;> cases hb : b.getLsbD k <;> simp [ha, hb] at hk ⊢
    exact ⟨BitVec.eq_of_getLsbD_eq fun k _ => by simp [hbit k], BitVec.eq_of_getLsbD_eq fun k _ => by simp [hbit k]⟩
  · rintro ⟨rfl, rfl⟩
    rfl

/-- Settles O15. -/
theorem bitwiseLogic : Obligations.BitwiseLogic := by
  refine ⟨fun w h => ⟨fun hn => ?_, fun hn => ?_, fun hn => ?_⟩, fun x y s => ⟨_, _, _, fun k _ => ⟨BitVec.getLsbD_or,
    BitVec.getLsbD_and, BitVec.getLsbD_xor⟩, writesReg_of_setV rfl, writesReg_of_setV rfl, writesReg_of_setV rfl,
    and_eq_xor_iff _ _⟩⟩
  all_goals simp [decode, decodeFamily8, opField, h, hn]

/-- Settles O16. -/
theorem addSetsCarry : Obligations.AddSetsCarry :=
  ⟨fun w h hn => by simp [decode, decodeFamily8, opField, h, hn], fun _ _ _ =>
    writesResultAndFlag_of_set rfl (BitVec.toNat_add _ _) rfl⟩

/-- Subtraction of bytes is the difference modulo 256. -/
theorem sub_toNat_eq_emod (a b : Byte) : (a - b).toNat = ((a.toNat - b.toNat : Int) % 256).toNat := by
  have := a.isLt
  have := b.isLt
  rw [BitVec.toNat_sub]
  omega

/-- Settles O17. -/
theorem subtractSetsNoBorrow : Obligations.SubtractSetsNoBorrow := by
  refine ⟨fun w h => ⟨fun hn => ?_, fun hn => ?_⟩, fun x y s => ⟨writesResultAndFlag_of_set rfl (sub_toNat_eq_emod _ _) rfl,
    writesResultAndFlag_of_set rfl (sub_toNat_eq_emod _ _) rfl⟩⟩
  all_goals simp [decode, decodeFamily8, opField, h, hn]

/-- Settles O18. -/
theorem shiftsByOne : Obligations.ShiftsByOne := by
  refine ⟨fun w h => ⟨fun hn => ?_, fun hn => ?_⟩, fun x s => ⟨writesResultAndFlag_of_set rfl ?_ (shiftedOutRight_iff _),
    writesResultAndFlag_of_set rfl ?_ (shiftedOutLeft_iff _)⟩⟩
  · simp [decode, decodeFamily8, opField, h, hn]
  · simp [decode, decodeFamily8, opField, h, hn]
  · rw [BitVec.toNat_ushiftRight, Nat.shiftRight_eq_div_pow, Nat.pow_one]
  · rw [BitVec.toNat_shiftLeft, Nat.shiftLeft_eq, Nat.pow_one]

/-- Settles O19. -/
theorem randomByteIsMasked : Obligations.RandomByteIsMasked := by
  refine ⟨fun w h => by simp [decode, opField, h], fun x kk s => ?_⟩
  have hrnd : WritesReg (.rnd x kk) s x (s.input.rnd &&& kk) := writesReg_of_setV rfl
  refine ⟨hrnd, fun inp rest hin => by rw [State.input, hin], fun h0 => ?_, fun hall => ?_⟩
  · have hmask : s.input.rnd &&& kk = 0 := by simp [h0]
    rwa [hmask] at hrnd
  · have hmask : s.input.rnd &&& kk = s.input.rnd := by
      rw [hall]
      exact BitVec.and_allOnes
    rwa [hmask] at hrnd

/-! ### The index register and memory transfers -/

/-- Settles O20. -/
theorem indexLoadAndAdd : Obligations.IndexLoadAndAdd :=
  ⟨fun w => ⟨fun h => by simp [decode, opField, h], fun h hkk => by simp [decode, decodeFamilyF, opField, h, hkk]⟩,
    fun nnn x s => ⟨⟨_, rfl, addrOperand_toNat nnn, setI_frame s _⟩, _, rfl, addByte_toNat _ _, setI_frame s _⟩⟩

/-- Settles O21. -/
theorem indexPointsAtGlyph : Obligations.IndexPointsAtGlyph :=
  ⟨fun w h hkk => by simp [decode, decodeFamilyF, opField, h, hkk], fun x s =>
    ⟨_, rfl, glyphAddress_toNat _, setI_frame s _⟩⟩

/-- Settles O22. -/
theorem storeDecimalDigits : Obligations.StoreDecimalDigits := by
  refine ⟨fun w h hkk => by simp [decode, decodeFamilyF, opField, h, hkk], fun x s => ⟨fun hr => ?_, fun hr => ?_⟩⟩
  · obtain ⟨_, e⟩ | ⟨hin, _⟩ := execLdBVx_cases x s
    · exact faults_of_raise e
    · exact absurd hr (Nat.not_lt.2 hin)
  · have := (s.getV x).isLt
    refine ⟨_, exec_ldBVx_next x hr, ?_, ?_, ?_, setMem_writeBytes_frame s _ (decimalDigits_length _)⟩
    all_goals
      rw [setMem_mem, read_writeBytes_digits]
      simp [byteAfterDigits]
      omega

/-- Settles O23. -/
theorem storeRegisters : Obligations.StoreRegisters := by
  refine ⟨fun w h hkk => by simp [decode, decodeFamilyF, opField, h, hkk], fun x s => ⟨fun hr => ?_, fun hr => ?_⟩⟩
  · obtain ⟨_, e⟩ | ⟨hin, _⟩ := execLdMemVx_cases x s
    · exact faults_of_raise e
    · exact absurd hr (Nat.not_lt.2 hin)
  · refine ⟨_, exec_ldMemVx_next x hr, fun r hrx => ?_, ldMemVx_frame s x⟩
    rw [setMem_mem, read_writeBytes_registers_block s hrx]

/-- Settles O24. -/
theorem loadRegisters : Obligations.LoadRegisters := by
  refine ⟨fun w h hkk => by simp [decode, decodeFamilyF, opField, h, hkk], fun x s => ⟨fun hr => ?_, fun hr => ?_⟩⟩
  · obtain ⟨_, e⟩ | ⟨hin, _⟩ := execLdVxMem_cases x s
    · exact faults_of_raise e
    · exact absurd hr (Nat.not_lt.2 hin)
  · refine ⟨_, exec_ldVxMem_next x hr, fun r hrx => ?_, ldVxMem_frame s x _⟩
    rw [getV_setVs, regsLoaded_get, if_pos hrx]

/-! ### The display, the keypad and the timers -/

/-- Settles O26. -/
theorem clearTurnsAllPixelsOff : Obligations.ClearTurnsAllPixelsOff :=
  ⟨fun w h hn => by simp [decode, decodeFamily0, opField, h, hn], fun s => ⟨_, rfl, pix_blank, setDisplay_frame s _⟩⟩

theorem exec_skp_next {x : RegIdx} {k : Fin 16} (h : (s.getV x).toNat = k.val) :
    exec (.skp x) s = .next (s.skipIf s.input.keys[k]) := by
  obtain ⟨hout, _⟩ | ⟨_, e⟩ := execSkp_cases x s
  · omega
  · simp only [exec, e, h]
    rfl

theorem exec_sknp_next {x : RegIdx} {k : Fin 16} (h : (s.getV x).toNat = k.val) :
    exec (.sknp x) s = .next (s.skipIf (!s.input.keys[k])) := by
  obtain ⟨hout, _⟩ | ⟨_, e⟩ := execSknp_cases x s
  · omega
  · simp only [exec, e, h]
    rfl

/-- Settles O31. -/
theorem skipsOnKey : Obligations.SkipsOnKey := by
  refine ⟨fun w h => ⟨fun hn => ?_, fun hn => ?_⟩, fun x s => ⟨fun hx => ⟨?_, ?_⟩, fun k hk =>
    ⟨skipsIf_of_skipIf (exec_skp_next hk) Iff.rfl, skipsIf_of_skipIf (exec_sknp_next hk) (by simp)⟩⟩⟩
  · simp [decode, decodeFamilyE, opField, h, hn]
  · simp [decode, decodeFamilyE, opField, h, hn]
  · obtain ⟨_, e⟩ | ⟨hin, _⟩ := execSkp_cases x s
    · exact faults_of_raise e
    · omega
  · obtain ⟨_, e⟩ | ⟨hin, _⟩ := execSknp_cases x s
    · exact faults_of_raise e
    · omega

/-- Settles O32: the transfers, and each followed by the end of its cycle. -/
theorem timerTransfers : Obligations.TimerTransfers := by
  refine ⟨fun w h => ⟨fun hkk => ?_, fun hkk => ?_, fun hkk => ?_⟩, fun x s => ⟨writesReg_of_setV rfl,
    ⟨_, rfl, rfl, setDt_frame s _⟩, ⟨_, rfl, rfl, setSt_frame s _⟩, fun w hs hw =>
      ⟨fun hd => ⟨_, step_ldVxDt hs hw hd, ?_, endCycle_dt_toNat (u := s.advance.setV x s.dt) hs⟩,
        fun hd => ⟨_, step_ldDtVx hs hw hd, endCycle_dt_toNat (u := s.advance.setDt (s.getV x)) hs⟩,
        fun hd => ⟨_, step_ldStVx hs hw hd, endCycle_st_toNat (u := s.advance.setSt (s.getV x)) hs⟩⟩⟩⟩
  case refine_4 => rw [getV_endCycle, getV_setV_same]
  all_goals simp [decode, decodeFamilyF, opField, h, hkk]

/-- Settles O33. -/
theorem waitForKey : Obligations.WaitForKey := by
  refine ⟨fun w h hkk => by simp [decode, decodeFamilyF, opField, h, hkk], fun x s => ⟨fun k hk hleast => ?_, fun hno => ?_⟩⟩
  · obtain ⟨hnone, _⟩ | ⟨k', hk', e⟩ := execLdVxK_cases x s
    · cases hnone.symm.trans (leastPressed_some _ k hk hleast)
    · obtain rfl := Option.some.inj (hk'.symm.trans (leastPressed_some _ k hk hleast))
      exact writesReg_of_setV e
  · obtain ⟨_, e⟩ | ⟨k, hk, _⟩ := execLdVxK_cases x s
    · exact ⟨_, e, rfl, setPc_frame s _⟩
    · cases hk.symm.trans ((leastPressed_eq_none_iff s.input).2 hno)

/-! ### The outputs -/

/-- Settles O58: one code for each cause. -/
theorem outputsReportTimerAndFault : Obligations.OutputsReportTimerAndFault := by
  refine fun s => ⟨rfl, fun hs => by rw [State.faultOutput, hs]; rfl, fun f hf => ⟨f.cause.code, ?_, ?_⟩⟩
  · rw [State.faultOutput, hf]
    rfl
  · cases f.cause <;> simp [Fault.code]

end Sys2Proof.Proofs
end
